-- ==== Sys2Proof/Word.lean ====
section
/-! DEFINITION. The word types of the core: bytes, 16-bit addresses, texts. (spec/00_scope.md R8, R9, R12) -/

namespace Sys2Proof

/-- A byte, 8 bits (R9): an opcode, an operand byte, a byte of the buffer. -/
abbrev Byte := BitVec 8

/-- A 16-bit value (R8 `PC_W`, `ADDR_W`): the program counter, the start address, a branch target. Wraps modulo 65536. -/
abbrev Addr := BitVec 16

/-- A string, "a finite sequence of ASCII characters" (R12). -/
abbrev Text := List Char

end Sys2Proof
end

