-- ==== Sys2Proof/Config.lean ====
section
/-! DEFINITION. What is fixed for a machine: the mode tags, the numeric parameters, the class sets, the Opcode Table as
a parameter, and when an Opcode Table is admissible. (spec/00_scope.md R8; spec/30_encoding.md R56, R62, R63, R66) -/

namespace Sys2Proof

/-- The nine addressing modes, "a closed enumeration" in the source's order (R56). -/
inductive Mode where
  | imp   -- `IMP`, implicit
  | imm8  -- `IMM8`, 8-bit immediate
  | immM  -- `IMM_M`, accumulator-width immediate
  | immX  -- `IMM_X`, index-width immediate
  | abs   -- `ABS`, absolute
  | absY  -- `ABS_Y`, absolute indexed by Y
  | dpX   -- `DP_X`, direct page indexed by X
  | long  -- `LONG`, 24-bit absolute
  | rel   -- `REL`, 8-bit relative
deriving DecidableEq, Repr

/-- The 4-bit code of a mode tag (R56); codes 9 to 15 are unused. -/
def Mode.code : Mode → BitVec 4
  | .imp => 0 | .imm8 => 1 | .immM => 2 | .immX => 3 | .abs => 4 | .absY => 5 | .dpX => 6 | .long => 7 | .rel => 8

/-- `WS`, the register-width state (R16): `m8` is true when the decoded accumulator is 8 bits wide, `x8` when the index
registers are. Two independent booleans with no packed layout (R18). -/
structure WidthState where
  m8 : Bool
  x8 : Bool
deriving DecidableEq, Repr

/-- Both flags 8-bit, the value every launch writes (R101, R213). -/
def WidthState.launch : WidthState := ⟨true, true⟩

/-- `BANK_SIZE` (R8). -/
def bankSize : Nat := 0x8000

/-- The default of `MAX_BYTES` (R8, R100). -/
def defaultMaxBytes : Nat := 0x180

/-- `ACC_BIT`, the status bit of the accumulator width (R8). -/
def accBit : Byte := 0x20

/-- `IDX_BIT`, the status bit of the index width (R8). -/
def idxBit : Byte := 0x10

/-- `REL_BASE`, "a fixed architectural constant" (R8, R93). -/
def relBase : Addr := 2

/-- `MAX_LEN`, the longest instruction in bytes (R8). -/
def maxLen : Nat := 4

/-- An opcode entry: the mnemonic and the mode of one opcode value (R61, R62). -/
structure Entry where
  mnemonic : Text
  mode : Mode
deriving DecidableEq, Repr

/-- Contents of the Opcode Table: total on the 256 opcode values, `none` for an unknown opcode (R62). -/
abbrev Rom := Byte → Option Entry

/-- The four sets of mnemonics the Decode Loop treats specially (R66). -/
structure ClassSets where
  call : List Text
  ret : List Text
  sep : List Text
  rep : List Text
deriving DecidableEq, Repr

/-- The class of a mnemonic (R66, R67). -/
inductive MnemonicClass where
  | call | ret | sep | rep | none
deriving DecidableEq, Repr

/-- What the spec leaves a parameter of the core: `OPCODE_ROM` (D5), the class sets (I2) and the mapper (D18). -/
structure Params where
  rom : Rom
  classes : ClassSets
  mapper : Byte → Addr → Nat

/-- The width-dependent modes (R65). -/
def Mode.widthDependent : Mode → Bool
  | .immM | .immX => true
  | _ => false

/-- Whether `c` is a lowercase ASCII letter. -/
def isLower (c : Char) : Bool := decide (97 ≤ c.toNat) && decide (c.toNat ≤ 122)

/-- RC5 (R63): a call entry is absolute or long, and no special-class entry is a relative branch. -/
def Params.RC5 (p : Params) : Prop :=
  ∀ op e, p.rom op = some e →
    (e.mnemonic ∈ p.classes.call → e.mode = .abs ∨ e.mode = .long) ∧
    (e.mnemonic ∈ p.classes.call ∨ e.mnemonic ∈ p.classes.ret ∨ e.mnemonic ∈ p.classes.sep ∨ e.mnemonic ∈ p.classes.rep →
      e.mode ≠ .rel)

/-- The constraints RC1 to RC6 that every admissible Opcode Table satisfies (R63), with the disjointness of the class
sets (R67). -/
structure Params.Admissible (p : Params) : Prop where
  /-- RC1: `0xA9` is `lda` with an accumulator-width immediate. -/
  rc1 : p.rom 0xA9 = some ⟨['l', 'd', 'a'], .immM⟩
  /-- RC2: `0x60` is `rts` with no operand. -/
  rc2 : p.rom 0x60 = some ⟨['r', 't', 's'], .imp⟩
  /-- RC2: `rts` is a return. -/
  rc2ret : ['r', 't', 's'] ∈ p.classes.ret
  /-- RC3: `0x00` is unknown. -/
  rc3 : p.rom 0x00 = none
  /-- RC4: a set- or reset-status entry has an operand byte and a width-independent mode. -/
  rc4 : ∀ op e, p.rom op = some e → e.mnemonic ∈ p.classes.sep ∨ e.mnemonic ∈ p.classes.rep →
    e.mode.widthDependent = false ∧ e.mode ≠ .imp
  /-- RC5: the modes of special-class entries. -/
  rc5 : p.RC5
  /-- RC6: every mnemonic is a non-empty lowercase word. -/
  rc6 : ∀ op e, p.rom op = some e → e.mnemonic ≠ [] ∧ e.mnemonic.all isLower = true
  /-- R67: a mnemonic is in at most one set. -/
  disjoint : ∀ mn, (if mn ∈ p.classes.call then 1 else 0) + (if mn ∈ p.classes.ret then 1 else 0)
    + (if mn ∈ p.classes.sep then 1 else 0) + (if mn ∈ p.classes.rep then 1 else 0) ≤ 1

end Sys2Proof
end

