-- ==== Sys2Proof/Machine/OpcodeTable.lean ====
section
/-! DEFINITION. The Opcode Table with its reference fill `REF_ROM`, the mnemonic classes and the Operand Sizer.
(spec/30_encoding.md R61, R62, R64, R66, R67, R68) -/

namespace Sys2Proof.Machine

open Sys2Proof

/-! ### Mnemonics, in lowercase as the table stores them (R75) -/

def mnBpl : Text := ['b', 'p', 'l']
def mnBmi : Text := ['b', 'm', 'i']
def mnBvc : Text := ['b', 'v', 'c']
def mnBvs : Text := ['b', 'v', 's']
def mnBra : Text := ['b', 'r', 'a']
def mnBcc : Text := ['b', 'c', 'c']
def mnBcs : Text := ['b', 'c', 's']
def mnBne : Text := ['b', 'n', 'e']
def mnBeq : Text := ['b', 'e', 'q']
def mnJsr : Text := ['j', 's', 'r']
def mnJsl : Text := ['j', 's', 'l']
def mnJmp : Text := ['j', 'm', 'p']
def mnJml : Text := ['j', 'm', 'l']
def mnRts : Text := ['r', 't', 's']
def mnRtl : Text := ['r', 't', 'l']
def mnRti : Text := ['r', 't', 'i']
def mnSep : Text := ['s', 'e', 'p']
def mnRep : Text := ['r', 'e', 'p']
def mnLda : Text := ['l', 'd', 'a']
def mnAnd : Text := ['a', 'n', 'd']
def mnCmp : Text := ['c', 'm', 'p']
def mnLdx : Text := ['l', 'd', 'x']
def mnLdy : Text := ['l', 'd', 'y']
def mnSta : Text := ['s', 't', 'a']
def mnSei : Text := ['s', 'e', 'i']
def mnClc : Text := ['c', 'l', 'c']
def mnXce : Text := ['x', 'c', 'e']
def mnNop : Text := ['n', 'o', 'p']

/-- One row of the reference fill: opcode, mnemonic, mode (R68). -/
structure RomRow where
  opcode : Byte
  mnemonic : Text
  mode : Mode
deriving DecidableEq, Repr

/-- The branch rows of R68. -/
def branchRows : List RomRow :=
  [⟨0x10, mnBpl, .rel⟩, ⟨0x30, mnBmi, .rel⟩, ⟨0x50, mnBvc, .rel⟩, ⟨0x70, mnBvs, .rel⟩, ⟨0x80, mnBra, .rel⟩,
   ⟨0x90, mnBcc, .rel⟩, ⟨0xB0, mnBcs, .rel⟩, ⟨0xD0, mnBne, .rel⟩, ⟨0xF0, mnBeq, .rel⟩]

/-- The call, jump and return rows of R68. -/
def callReturnRows : List RomRow :=
  [⟨0x20, mnJsr, .abs⟩, ⟨0x22, mnJsl, .long⟩, ⟨0x4C, mnJmp, .abs⟩, ⟨0x5C, mnJml, .long⟩,
   ⟨0x60, mnRts, .imp⟩, ⟨0x6B, mnRtl, .imp⟩, ⟨0x40, mnRti, .imp⟩]

/-- The width-control and immediate rows of R68. -/
def immediateRows : List RomRow :=
  [⟨0xE2, mnSep, .imm8⟩, ⟨0xC2, mnRep, .imm8⟩, ⟨0xA9, mnLda, .immM⟩, ⟨0x29, mnAnd, .immM⟩, ⟨0xC9, mnCmp, .immM⟩,
   ⟨0xA2, mnLdx, .immX⟩, ⟨0xA0, mnLdy, .immX⟩]

/-- The memory-operand and implicit rows of R68. -/
def memoryImplicitRows : List RomRow :=
  [⟨0x8D, mnSta, .abs⟩, ⟨0xAD, mnLda, .abs⟩, ⟨0xB9, mnLda, .absY⟩, ⟨0x95, mnSta, .dpX⟩, ⟨0x8F, mnSta, .long⟩,
   ⟨0x78, mnSei, .imp⟩, ⟨0x18, mnClc, .imp⟩, ⟨0xFB, mnXce, .imp⟩, ⟨0xEA, mnNop, .imp⟩]

/-- The 32 rows of `REF_ROM` (R68). -/
def refRows : List RomRow := branchRows ++ callReturnRows ++ immediateRows ++ memoryImplicitRows

/-- `ROM(op)` for the reference fill: the row's entry, `none` for every opcode not listed (R62, R68).
PRESUMED (log 2): the 30 rows other than `0xA9` and `0x60` are the spec's general knowledge of the 65C816. -/
def refRom : Rom := fun op => (refRows.find? fun r => r.opcode == op).map fun r => ⟨r.mnemonic, r.mode⟩

/-- The class sets (R66). -/
def refClasses : ClassSets :=
  { call := [mnJsl, mnJsr, mnJmp, mnJml], ret := [mnRts, mnRtl, mnRti], sep := [mnSep], rep := [mnRep] }

/-- The class of a mnemonic, a function of the mnemonic alone (R66, R67). -/
def classOf (c : ClassSets) (mn : Text) : MnemonicClass :=
  if mn ∈ c.call then .call
  else if mn ∈ c.ret then .ret
  else if mn ∈ c.sep then .sep
  else if mn ∈ c.rep then .rep
  else .none

/-- The Operand Sizer `size(mode, WS)` (R64): the total byte length of an instruction. -/
def instrSize (mode : Mode) (ws : WidthState) : Nat :=
  match mode with
  | .imp => 1
  | .imm8 => 2
  | .immM => if ws.m8 then 2 else 3
  | .immX => if ws.x8 then 2 else 3
  | .abs => 3
  | .absY => 3
  | .dpX => 2
  | .long => 4
  | .rel => 2

/-- The length of the step that reads opcode `op` (R71): 1 for an unknown opcode, else the sizer's. -/
def lengthOf (rom : Rom) (ws : WidthState) (op : Byte) : Nat :=
  match rom op with
  | none => 1
  | some e => instrSize e.mode ws

end Sys2Proof.Machine
end

