-- ==== Sys2Proof/Syntax.lean ====
section
/-! DEFINITION. The instructions: one constructor per row of spec/opcode_table.json (spec/30_encoding.md R68), each with
the operand bytes the step captured, and the raw byte of an unknown opcode (R69). -/

namespace Sys2Proof

/-- An instruction of the reference fill `REF_ROM`, as the Decode Loop holds it in one step: the opcode and `ops`, "the
captured operand bytes, a sequence of 0 to 3 bytes" (R34), first byte after the opcode first. A truncated instruction has
fewer operand bytes than its size asks for (R106). -/
inductive Instr where
  -- relative branches (spec/43_flow_control.md §2)
  | bpl (ops : List Byte)
  | bmi (ops : List Byte)
  | bvc (ops : List Byte)
  | bvs (ops : List Byte)
  | bra (ops : List Byte)
  | bcc (ops : List Byte)
  | bcs (ops : List Byte)
  | bne (ops : List Byte)
  | beq (ops : List Byte)
  -- calls and jumps (spec/43_flow_control.md §1)
  | jsr (ops : List Byte)
  | jsl (ops : List Byte)
  | jmp (ops : List Byte)
  | jml (ops : List Byte)
  -- returns (spec/43_flow_control.md §3)
  | rts
  | rtl
  | rti
  -- width control (spec/42_width_control.md)
  | sep (ops : List Byte)
  | rep (ops : List Byte)
  -- width-dependent immediates (spec/44_data_and_implicit.md §2)
  | ldaImm (ops : List Byte)
  | andImm (ops : List Byte)
  | cmpImm (ops : List Byte)
  | ldxImm (ops : List Byte)
  | ldyImm (ops : List Byte)
  -- memory-operand forms (spec/44_data_and_implicit.md §3)
  | staAbs (ops : List Byte)
  | ldaAbs (ops : List Byte)
  | ldaAbsY (ops : List Byte)
  | staDpX (ops : List Byte)
  | staLong (ops : List Byte)
  -- implicit forms (spec/44_data_and_implicit.md §4)
  | sei
  | clc
  | xce
  | nop
  -- an unknown opcode (R69): the pseudo-operation `.byte`
  | byte (op : Byte)
deriving DecidableEq, Repr

/-- The opcode byte of an instruction (R68). -/
def Instr.opcode : Instr → Byte
  | .bpl _ => 0x10 | .bmi _ => 0x30 | .bvc _ => 0x50 | .bvs _ => 0x70 | .bra _ => 0x80
  | .bcc _ => 0x90 | .bcs _ => 0xB0 | .bne _ => 0xD0 | .beq _ => 0xF0
  | .jsr _ => 0x20 | .jsl _ => 0x22 | .jmp _ => 0x4C | .jml _ => 0x5C
  | .rts => 0x60 | .rtl => 0x6B | .rti => 0x40
  | .sep _ => 0xE2 | .rep _ => 0xC2
  | .ldaImm _ => 0xA9 | .andImm _ => 0x29 | .cmpImm _ => 0xC9 | .ldxImm _ => 0xA2 | .ldyImm _ => 0xA0
  | .staAbs _ => 0x8D | .ldaAbs _ => 0xAD | .ldaAbsY _ => 0xB9 | .staDpX _ => 0x95 | .staLong _ => 0x8F
  | .sei => 0x78 | .clc => 0x18 | .xce => 0xFB | .nop => 0xEA
  | .byte op => op

/-- The captured operand bytes of an instruction (R34). -/
def Instr.ops : Instr → List Byte
  | .bpl o | .bmi o | .bvc o | .bvs o | .bra o | .bcc o | .bcs o | .bne o | .beq o => o
  | .jsr o | .jsl o | .jmp o | .jml o => o
  | .sep o | .rep o => o
  | .ldaImm o | .andImm o | .cmpImm o | .ldxImm o | .ldyImm o => o
  | .staAbs o | .ldaAbs o | .ldaAbsY o | .staDpX o | .staLong o => o
  | .rts | .rtl | .rti | .sei | .clc | .xce | .nop | .byte _ => []

end Sys2Proof
end

