-- ==== Sys2Proof/WellFormed.lean ====
section
/-! DEFINITION. When an instruction is one the Decode Loop can hold under a width state. (spec/30_encoding.md R57, R64,
R69; spec/41_decode_loop.md R106) -/

namespace Sys2Proof

/-- An instruction is well formed under width state `ws` when
* a raw byte is an unknown opcode of the table (R69), and
* any other has at most `size(mode, ws) - 1` captured operand bytes (R80, R106): fewer when it is truncated. -/
def Instr.wf (ws : WidthState) : Instr → Bool
  | .byte op => (Machine.refRom op).isNone
  | i => decide (i.ops.length < Machine.lengthOf Machine.refRom ws i.opcode)

/-- A complete instruction: every operand byte its size asks for is captured (R81, "the normal case"). -/
def Instr.complete (ws : WidthState) (i : Instr) : Bool :=
  i.wf ws && i.ops.length + 1 == Machine.lengthOf Machine.refRom ws i.opcode

end Sys2Proof
end

