-- ==== Sys2Proof/Decode.lean ====
section
/-! DEFINITION. From bytes to an instruction and back. (spec/30_encoding.md R57, R58, R62, R69, R71;
spec/41_decode_loop.md R104, R106) -/

namespace Sys2Proof

/-- Why bytes do not decode. Raised by `decode` alone. Safe: the Decode Loop never asks it (the step always has the
opcode byte, R102). -/
inductive DecodeError where
  /-- There is no byte at all: not even an opcode. -/
  | noOpcodeByte
deriving DecidableEq, Repr

/-- The instruction an opcode byte and its captured operand bytes stand for (R57, "the opcode byte alone selects"). An
opcode outside the table is a raw byte (R69). -/
def ofOpcode (op : Byte) (ops : List Byte) : Instr :=
  match op with
  | 0x10#8 => .bpl ops
  | 0x30#8 => .bmi ops
  | 0x50#8 => .bvc ops
  | 0x70#8 => .bvs ops
  | 0x80#8 => .bra ops
  | 0x90#8 => .bcc ops
  | 0xB0#8 => .bcs ops
  | 0xD0#8 => .bne ops
  | 0xF0#8 => .beq ops
  | 0x20#8 => .jsr ops
  | 0x22#8 => .jsl ops
  | 0x4C#8 => .jmp ops
  | 0x5C#8 => .jml ops
  | 0x60#8 => .rts
  | 0x6B#8 => .rtl
  | 0x40#8 => .rti
  | 0xE2#8 => .sep ops
  | 0xC2#8 => .rep ops
  | 0xA9#8 => .ldaImm ops
  | 0x29#8 => .andImm ops
  | 0xC9#8 => .cmpImm ops
  | 0xA2#8 => .ldxImm ops
  | 0xA0#8 => .ldyImm ops
  | 0x8D#8 => .staAbs ops
  | 0xAD#8 => .ldaAbs ops
  | 0xB9#8 => .ldaAbsY ops
  | 0x95#8 => .staDpX ops
  | 0x8F#8 => .staLong ops
  | 0x78#8 => .sei
  | 0x18#8 => .clc
  | 0xFB#8 => .xce
  | 0xEA#8 => .nop
  | op => .byte op

/-- Reads one instruction from the bytes that are left of the window, under width state `ws`: the opcode byte, then as
many of its `size - 1` operand bytes as there are (R106, "clipped"). Answers it with the bytes after it. No opcode is
refused (R69, R70). -/
def decode (ws : WidthState) : List Byte → Except DecodeError (Instr × List Byte)
  | [] => .error .noOpcodeByte
  | op :: rest =>
    let n := Machine.lengthOf Machine.refRom ws op - 1
    .ok (ofOpcode op (rest.take n), rest.drop n)

/-- The bytes of an instruction, in buffer order: the opcode byte, then the operand bytes, least significant first (R44,
R58). -/
def encode (i : Instr) : List Byte := i.opcode :: i.ops

/-- The `maxLen` bytes in buffer order of an opcode-table word of `nbits` bits, bit 0 the least significant bit of the
first byte; the bits above `nbits` are zero. -/
def tableBytes (nbits w : Nat) : List Byte :=
  let v := w % 2 ^ nbits
  [BitVec.ofNat 8 v, BitVec.ofNat 8 (v / 0x100), BitVec.ofNat 8 (v / 0x10000), BitVec.ofNat 8 (v / 0x1000000)]

/-- The instruction the decoder reads from an opcode-table word, in the width state of a launch (R213). -/
def decodeTableWord (nbits w : Nat) : Option Instr :=
  match decode WidthState.launch (tableBytes nbits w) with
  | .ok (i, _) => some i
  | .error _ => none

end Sys2Proof
end

