-- ==== Sys2Proof/Machine/Flags.lean ====
section
/-! DEFINITION. Every computation of the two width flags, the only flags of the core. The polarity is the source's, the
reverse of the decoded processor's. (spec/10_state.md R31; spec/42_width_control.md R130, R131; spec/90_conflicts.md C7) -/

namespace Sys2Proof.Machine

open Sys2Proof

/-- Whether status bits `mask` are set in operand byte `p`: `(p & mask) != 0`. -/
def testBits (p mask : Byte) : Bool := decide (p &&& mask ≠ 0)

/-- A set-status instruction with operand byte `p` marks 16-bit each width whose bit is set (R130). -/
def setStatus (p : Byte) (ws : WidthState) : WidthState :=
  { m8 := if testBits p accBit then false else ws.m8, x8 := if testBits p idxBit then false else ws.x8 }

/-- A reset-status instruction with operand byte `p` marks 8-bit each width whose bit is set (R131). -/
def resetStatus (p : Byte) (ws : WidthState) : WidthState :=
  { m8 := if testBits p accBit then true else ws.m8, x8 := if testBits p idxBit then true else ws.x8 }

/-- The width update of a step with captured operand bytes `ops`: "each only when `navail >= 1`", from the first byte
(R113, R130; D22). -/
def widthUpdate (f : Byte → WidthState → WidthState) (ops : List Byte) (ws : WidthState) : WidthState :=
  match ops with
  | [] => ws
  | p :: _ => f p ws

end Sys2Proof.Machine
end

