-- ==== Sys2Proof/Machine/Operands.lean ====
section
/-! DEFINITION. The text primitives and the Operand Formatter with its branch-target resolver: every addressing mode.
(spec/00_scope.md R10, R12; spec/40_operand_formatter.md R80 to R94; spec/41_decode_loop.md R108, R109, R112) -/

namespace Sys2Proof.Machine

open Sys2Proof

/-! ### Text primitives (R12) -/

/-- The uppercase hexadecimal digit of a value below 16. -/
def hexDigit (d : Nat) : Char := if d < 10 then Char.ofNat (48 + d) else Char.ofNat (55 + d)

/-- `hex_N(v)`: `v mod 16^N` as exactly `N` digits, most significant first. -/
def hexN : Nat → Nat → Text
  | 0, _ => []
  | n + 1, v => hexN n (v / 16) ++ [hexDigit (v % 16)]

/-- `a`–`z` to `A`–`Z`, every other character as it is. -/
def upperChar (c : Char) : Char := if isLower c then Char.ofNat (c.toNat - 32) else c

/-- `upper(s)`. -/
def upper (t : Text) : Text := t.map upperChar

/-- Removes every leading space. -/
def trimLeft (t : Text) : Text := t.dropWhile (· == ' ')

/-- `trim(s)`: removes every leading and every trailing space. -/
def trim (t : Text) : Text := (trimLeft (trimLeft t).reverse).reverse

/-! ### Operand assembly -/

/-- Operand byte `b_j`: the captured byte, and `0x00` for a missing one (R81).
DESIGN CHOICE of the spec (D11, log 6): the zero fill. -/
def opByte (ops : List Byte) (j : Nat) : Byte := ops.getD j 0

/-- `b_0 | (b_1 << 8)` (R44, R59). -/
def word16 (ops : List Byte) : Nat := (opByte ops 0).toNat ||| ((opByte ops 1).toNat <<< 8)

/-- `b_0 | (b_1 << 8) | (b_2 << 16)` (R44, R59). -/
def word24 (ops : List Byte) : Nat := word16 ops ||| ((opByte ops 2).toNat <<< 16)

/-- The branch-target resolver: `(pc + 2 + sext_8(b_0)) mod 65536` (R60, R91, R93). -/
def relTarget (ops : List Byte) (pc : Addr) : Addr := pc + relBase + (opByte ops 0).signExtend 16

/-- The text of an immediate: two digits for at most one captured byte, four for two (R84, R85). -/
def immText (ops : List Byte) : Text :=
  if max 1 ops.length = 1 then ['#', '$'] ++ hexN 2 (opByte ops 0).toNat else ['#', '$'] ++ hexN 4 (word16 ops)

/-- The Operand Formatter `fmt(mode, ops, pc)` (R82 to R91). Total on every operand count (R80). -/
def fmt (mode : Mode) (ops : List Byte) (pc : Addr) : Text :=
  match mode with
  | .imp => []
  | .imm8 => ['#', '$'] ++ hexN 2 (opByte ops 0).toNat
  | .immM => immText ops
  | .immX => immText ops
  | .abs => ['$'] ++ hexN 4 (word16 ops)
  | .absY => ['$'] ++ hexN 4 (word16 ops) ++ [',', 'Y']
  | .dpX => ['$'] ++ hexN 2 (opByte ops 0).toNat ++ [',', 'X']
  | .long => ['$'] ++ hexN 6 (word24 ops)
  | .rel => ['$'] ++ hexN 4 (relTarget ops pc).toNat

/-! ### Structured outputs (R94) -/

/-- The formatter's structured outputs: the assembled value (none for `IMP`), the number of hex digits rendered, and the
resolved target (for `REL` only) (R94). -/
structure FormatterOutputs where
  value : Option Nat
  digits : Nat
  target : Option Addr
deriving DecidableEq, Repr

/-- The structured outputs of a step (R94).
DESIGN CHOICE (log 21): R59 gives the value of a `REL` operand as "`ops[0]`, 8 bits" and R60 reads it as signed, without
saying which of the two the bundle holds; here `value` of `REL` is the raw byte, 0 to 255, and the signed reading is in
`target` alone. -/
def fmtOutputs (mode : Mode) (ops : List Byte) (pc : Addr) : FormatterOutputs :=
  match mode with
  | .imp => ⟨none, 0, none⟩
  | .imm8 => ⟨some (opByte ops 0).toNat, 2, none⟩
  | .immM | .immX =>
    if ops.length ≤ 1 then ⟨some (opByte ops 0).toNat, 2, none⟩ else ⟨some (word16 ops), 4, none⟩
  | .abs | .absY => ⟨some (word16 ops), 4, none⟩
  | .dpX => ⟨some (opByte ops 0).toNat, 2, none⟩
  | .long => ⟨some (word24 ops), 6, none⟩
  | .rel => ⟨some (opByte ops 0).toNat, 4, some (relTarget ops pc)⟩

/-- The operand text as a function of the structured outputs and the mode (R94). -/
def renderOutputs (mode : Mode) (o : FormatterOutputs) : Text :=
  let digits := hexN o.digits (match o.target with | some t => t.toNat | none => o.value.getD 0)
  match mode with
  | .imp => []
  | .imm8 | .immM | .immX => ['#', '$'] ++ digits
  | .abs | .long | .rel => ['$'] ++ digits
  | .absY => ['$'] ++ digits ++ [',', 'Y']
  | .dpX => ['$'] ++ digits ++ [',', 'X']

/-! ### Lines and descriptors -/

/-- The line of a known opcode: `trim(hex_4(pc) ++ ": " ++ mn ++ " " ++ text)` (R107, R108). -/
def knownLine (pc : Addr) (mn text : Text) : Text := trim (hexN 4 pc.toNat ++ [':', ' '] ++ mn ++ [' '] ++ text)

/-- The line of an unknown opcode: `hex_4(pc) ++ ": .byte $" ++ hex_2(op)` (R105, R109). -/
def rawLine (pc : Addr) (op : Byte) : Text :=
  hexN 4 pc.toNat ++ [':', ' ', '.', 'b', 'y', 't', 'e', ' ', '$'] ++ hexN 2 op.toNat

/-- A descriptor: "the uppercase mnemonic, one space and the operand text" (R112). -/
def descriptor (mn text : Text) : Text := upper mn ++ [' '] ++ text

end Sys2Proof.Machine
end

