-- ==== Sys2Proof/Machine/State.lean ====
section
/-! DEFINITION. The state of the core, its launch inputs, the reasons a step can stop, and the state at power-on.
(spec/10_state.md R15; spec/20_memory.md R36; spec/60_exceptions.md R203; spec/70_reset_and_hazards.md R210) -/

namespace Sys2Proof.Machine

open Sys2Proof

/-- The sequencer state (R26). -/
inductive Phase where
  | idle  -- before the first launch
  | run   -- from launch until the pass ends
  | done  -- after the pass
deriving DecidableEq, Repr

/-- Sparse contents: (offset, byte) pairs in canonical form, see `Memory.wf`. -/
abbrev Memory := List Host.Cell

/-- What an unlisted offset reads as. DESIGN CHOICE (log 5): only the representation of a buffer, every byte of which the
launcher supplies (R36). -/
def Memory.unlisted : Byte := 0x00

/-- Offsets strictly rising from at least `lo`, and no entry equal to what an unlisted offset reads as. -/
def Memory.wfFrom (lo : Nat) : Memory → Bool
  | [] => true
  | (a, b) :: rest => decide (lo ≤ a) && decide (b ≠ Memory.unlisted) && Memory.wfFrom (a + 1) rest

/-- The canonical form. -/
def Memory.wf (m : Memory) : Bool := Memory.wfFrom 0 m

/-- `BUF` with its length `BUF_LEN`: "a read-only sequence of `BUF_LEN` bytes, addressed by linear offset" (R36). -/
structure Buffer where
  cells : Memory
  len : Nat
deriving DecidableEq, Repr

/-- A buffer in canonical form lists no offset at or beyond its length. -/
def Buffer.wf (b : Buffer) : Bool := b.cells.wf && b.cells.all fun c => decide (c.1 < b.len)

/-- What the launcher can do to the core (R203, R215).
DESIGN CHOICE (log 3): the launcher's actions stand in State as a queue, oldest first. -/
inductive HostAction where
  /-- Launch a pass with a loaded buffer, a start address and, unless the default is wanted, a byte budget (R100). -/
  | launch (buf : Buffer) (raIn : Addr) (maxBytes : Option Nat)
  /-- Change the buffer outside a launch. During a pass this breaks the launcher's promise (R54). -/
  | changeBuffer (buf : Buffer)
deriving DecidableEq, Repr

/-- Every buffer an action carries is in canonical form. -/
def HostAction.wf : HostAction → Bool
  | .launch b _ _ => b.wf
  | .changeBuffer b => b.wf

/-- Whether an action changes the buffer outside a launch. -/
def HostAction.changesBuffer : HostAction → Bool
  | .launch _ _ _ => false
  | .changeBuffer _ => true

/-- A set of strings (R13), held as the list of its members in strictly ascending lexicographic order, so that equal sets
are equal data. -/
abbrev TextSet := List Text

/-- The state of the core (R15), the launch inputs in force (R15, last paragraph) and the launcher's queue. -/
structure State where
  /-- `WS`, the register-width flags (R16). -/
  ws : WidthState
  /-- `CUR`, the offset of the next byte to decode, an unbounded natural number (R19). -/
  cur : Nat
  /-- `START`, the window's base (R20). -/
  start : Nat
  /-- `END`, the window's exclusive limit (R21). -/
  endOff : Nat
  /-- `RA`, the latched start address (R22). -/
  ra : Addr
  /-- `LINES`, in decode order (R23). -/
  lines : List Text
  /-- `CALLS` (R24). -/
  calls : TextSet
  /-- `BRANCHES` (R25). -/
  branches : TextSet
  /-- `PHASE` (R26). -/
  phase : Phase
  /-- `BUF` and `BUF_LEN`, fixed for the whole pass (R15, R36). -/
  buf : Buffer
  /-- `MAX_BYTES` of the pass, a launch input fixed for the whole pass (R15, R100). -/
  maxBytes : Nat
  /-- The launcher's actions the core has not seen yet, oldest first (R203). The MODEL's own field (log 3). -/
  host : List HostAction
deriving DecidableEq, Repr

/-- Why a step stops with a fault. The core itself has none (R190); the one below is reached from no launch. -/
inductive Fault where
  /-- A step would read the buffer at `offset` outside the window or the buffer. Raised by the fetch. Safe: no such read
  is ever issued (R37, R50), so only a state that no launch leads to raises it. -/
  | readOutsideWindow (offset : Nat)
deriving DecidableEq, Repr

/-- Why a step has no meaning. -/
inductive Refusal where
  /-- An instruction without a meaning yet, by its mnemonic. Raised by `exec`'s arms alone. Safe. -/
  | notModelled (mnemonic : String)
  /-- No step is enabled: the phase is `IDLE` or `DONE` and no launch is waiting (R102, R118, R210). Raised by `step`. It
  is the rest state of the core and no fault (R118). Safe. -/
  | noStepEnabled
  /-- The launcher changes the buffer during a pass, which "a model refuses" (R54). Raised by `step`. Safe. -/
  | bufferChangedDuringPass
  /-- The core's Opcode Table and class sets break RC5, and a run with such a table is refused (R63; I11). Raised by
  `stepWith` at every step; never by `step`, whose table satisfies RC5. Safe. -/
  | tableOutsideRC5
  /-- The fetched bytes do not decode. Raised by `step`; never answered, since the fetch always holds the opcode byte.
  Safe. -/
  | noOpcodeByte
deriving DecidableEq, Repr

/-- Power-on (R210): `PHASE = IDLE`, no buffer, nothing listed, no launch waiting.
DESIGN CHOICE (log 1): the spec leaves every other register unspecified and unread; the model gives the width flags the
"documented post-reset state" (R213), `MAX_BYTES` its default, and the rest zero or empty. -/
def State.reset : State :=
  { ws := WidthState.launch, cur := 0, start := 0, endOff := 0, ra := 0, lines := [], calls := [], branches := [],
    phase := .idle, buf := ⟨[], 0⟩, maxBytes := defaultMaxBytes, host := [] }

end Sys2Proof.Machine
end

