-- ==== Sys2Proof/Machine/Ops.lean ====
section
/-! DEFINITION. The named operations over the buffer, the registers and the output accumulators, the Address Mapper and
the launch. The core takes no exception and returns from none (spec/60_exceptions.md R190, R196, R197), so there is no
such operation here. (spec/20_memory.md R36 to R42; spec/10_state.md R27; spec/41_decode_loop.md R100, R101, R106) -/

namespace Sys2Proof.Machine

open Sys2Proof

/-! ### The buffer -/

/-- The byte at an offset of sparse contents. -/
def Memory.read : Memory → Nat → Byte
  | [], _ => Memory.unlisted
  | (a, b) :: rest, k => if k = a then b else Memory.read rest k

/-- Puts a byte at an offset, keeping the canonical form. Used only to build a buffer: the core writes none (R36). -/
def Memory.write : Memory → Nat → Byte → Memory
  | [], k, v => if v = Memory.unlisted then [] else [(k, v)]
  | (a, b) :: rest, k, v =>
    if k < a then (if v = Memory.unlisted then (a, b) :: rest else (k, v) :: (a, b) :: rest)
    else if k = a then (if v = Memory.unlisted then rest else (k, v) :: rest)
    else (a, b) :: Memory.write rest k v

/-- `buf[k]`, "the byte at linear offset `k`", defined for `k < BUF_LEN` (R11, R36). -/
def Buffer.read? (b : Buffer) (k : Nat) : Option Byte :=
  if k < b.len then some (b.cells.read k) else none

/-- Puts a byte at an offset, lengthening the buffer to hold it (log 4: only `withFetchWord` and `Buffer.ofBytes`). -/
def Buffer.put (b : Buffer) (k : Nat) (v : Byte) : Buffer :=
  { cells := b.cells.write k v, len := max b.len (k + 1) }

/-- Puts bytes at consecutive offsets from `k` on. -/
def Buffer.putAll (b : Buffer) (k : Nat) : List Byte → Buffer
  | [] => b
  | v :: vs => Buffer.putAll (b.put k v) (k + 1) vs

/-- The buffer holding exactly the given bytes from offset 0 on. -/
def Buffer.ofBytes (bs : List Byte) : Buffer := Buffer.putAll ⟨[], 0⟩ 0 bs

/-! ### The Address Mapper -/

/-- `linearOffset(bank, addr16) = bank * 0x8000 + (addr16 & 0x7FFF)` (R40). -/
def linearOffset (bank : Byte) (addr : Addr) : Nat := bank.toNat * bankSize + (addr &&& 0x7FFF#16).toNat

/-! ### Strings and sets of strings -/

/-- Whether `a` comes strictly before `b` in lexicographic order of the character codes (R121). -/
def textLt : Text → Text → Bool
  | _, [] => false
  | [], _ :: _ => true
  | a :: as, b :: bs => if a.toNat < b.toNat then true else if a = b then textLt as bs else false

/-- Adds a string to a set; a string already present leaves it unchanged (R122). -/
def TextSet.insert (x : Text) : TextSet → TextSet
  | [] => [x]
  | y :: ys => if textLt x y then x :: y :: ys else if x = y then y :: ys else y :: TextSet.insert x ys

/-- `sorted(S)`: the members in ascending lexicographic order, each once (R121, R122). -/
def sortedSet (s : List Text) : List Text := s.foldr TextSet.insert []

/-! ### Registers -/

/-- The program counter, "not a register but a function of the registers": `(RA + (CUR - START)) mod 65536` (R27). -/
def State.pc (s : State) : Addr := s.ra + BitVec.ofNat 16 s.cur - BitVec.ofNat 16 s.start

/-- `LINES <- LINES ++ [l]` (R105, R107). -/
def State.appendLine (s : State) (l : Text) : State := { s with lines := s.lines ++ [l] }

/-- `CALLS <- CALLS ∪ {d}` (R110). -/
def State.addCall (s : State) (d : Text) : State := { s with calls := TextSet.insert d s.calls }

/-- `BRANCHES <- BRANCHES ∪ {d}` (R111). -/
def State.addBranch (s : State) (d : Text) : State := { s with branches := TextSet.insert d s.branches }

/-- `WS <- w` (R130, R131). -/
def State.setWidth (s : State) (w : WidthState) : State := { s with ws := w }

/-- `CUR <- CUR + n`, then `PHASE <- DONE` when the window is exhausted (R105, R114, R117). -/
def State.advance (s : State) (n : Nat) : State :=
  { s with cur := s.cur + n, phase := if s.endOff ≤ s.cur + n then .done else s.phase }

/-- `PHASE <- DONE` (R115). -/
def State.endPass (s : State) : State := { s with phase := .done }

/-! ### Fetch -/

/-- A buffer read of the Decode Loop: at an offset `START <= k < END` inside the buffer (R37). Any other offset faults. -/
def State.readByte (s : State) (k : Nat) : Except Fault Byte :=
  if s.start ≤ k ∧ k < s.endOff then
    match s.buf.read? k with
    | some b => .ok b
    | none => .error (.readOutsideWindow k)
  else .error (.readOutsideWindow k)

/-- Captures `n` bytes from offset `k` on, in increasing offset order (R45). -/
def State.capture (s : State) (k : Nat) : Nat → Except Fault (List Byte)
  | 0 => .ok []
  | n + 1 =>
    match s.readByte k with
    | .error f => .error f
    | .ok b =>
      match s.capture (k + 1) n with
      | .error f => .error f
      | .ok bs => .ok (b :: bs)

/-- `navail = min(sz - 1, END - CUR - 1)` (R106). -/
def State.navail (s : State) (sz : Nat) : Nat := min (sz - 1) (s.endOff - s.cur - 1)

/-- The bytes the step reads: the opcode, then the operand bytes its size asks for, clipped at `END` (R104, R105, R106). -/
def State.fetch (s : State) (rom : Rom) : Except Fault (List Byte) :=
  match s.readByte s.cur with
  | .error f => .error f
  | .ok op =>
    match s.capture (s.cur + 1) (s.navail (lengthOf rom s.ws op)) with
    | .error f => .error f
    | .ok ops => .ok (op :: ops)

/-! ### Launch -/

/-- Launch a pass (R100, R101): latch the inputs, set the window, initialise every register, whatever a previous pass
left. -/
def State.launchWith (s : State) (mapper : Byte → Addr → Nat) (buf : Buffer) (raIn : Addr) (maxBytes : Option Nat) :
    State :=
  let m := maxBytes.getD defaultMaxBytes
  let start := mapper 0 raIn
  let endOff := min buf.len (start + m)
  { ws := WidthState.launch, cur := start, start := start, endOff := endOff, ra := raIn, lines := [], calls := [],
    branches := [], phase := if start < endOff then .run else .done, buf := buf, maxBytes := m, host := s.host }

/-! ### Outputs -/

/-- The disassembly result (R35). -/
structure DisassemblyResult where
  lines : List Text
  calls : List Text
  branches : List Text
deriving DecidableEq, Repr

/-- What the core delivers (R119): the result in `DONE`, and no valid output in any other phase (R203, R210). -/
def State.result? (s : State) : Option DisassemblyResult :=
  match s.phase with
  | .done => some ⟨s.lines, sortedSet s.calls, sortedSet s.branches⟩
  | .idle | .run => none

end Sys2Proof.Machine
end

