-- ==== Sys2Proof/Machine/ClassSteps.lean ====
section
/-! DEFINITION. The step of each class of instruction over the shared operations: the decoded-instruction bundle, and what
a data, call, branch, return, set-status, reset-status instruction and a raw byte do. (spec/10_state.md R34;
spec/41_decode_loop.md R105 to R117; spec/42_width_control.md R130, R131; spec/43_flow_control.md R140, R145, R155;
spec/44_data_and_implicit.md R170) -/

namespace Sys2Proof.Machine

open Sys2Proof

/-- The decoded-instruction bundle of a step, "computed combinationally and discarded at the end of the step" (R34). -/
structure Bundle where
  pc : Addr
  mnemonic : Text
  ops : List Byte
  text : Text
  len : Nat
deriving DecidableEq, Repr

/-- The bundle of a known instruction in state `s`, all from the values at the start of the step (R103, R106, R107). -/
def State.bundle (s : State) (mn : Text) (mode : Mode) (ops : List Byte) : Bundle :=
  { pc := s.pc, mnemonic := mn, ops := ops, text := fmt mode ops s.pc, len := instrSize mode s.ws }

/-- The bundle's line (R107). -/
def Bundle.line (b : Bundle) : Text := knownLine b.pc b.mnemonic b.text

/-- The bundle's descriptor (R112). -/
def Bundle.descriptor (b : Bundle) : Text := Machine.descriptor b.mnemonic b.text

/-- Class `NONE`, not a branch (R170): append the line, advance by the size. -/
def plainStep (mn : Text) (mode : Mode) (ops : List Byte) (s : State) : State :=
  let b := s.bundle mn mode ops
  (s.appendLine b.line).advance b.len

/-- Call or jump (R140): append the line, add the descriptor to `CALLS`, advance by the size. -/
def callStep (mn : Text) (mode : Mode) (ops : List Byte) (s : State) : State :=
  let b := s.bundle mn mode ops
  ((s.appendLine b.line).addCall b.descriptor).advance b.len

/-- Relative branch (R145): append the line, add the descriptor to `BRANCHES`, advance by the size. -/
def branchStep (mn : Text) (ops : List Byte) (s : State) : State :=
  let b := s.bundle mn .rel ops
  ((s.appendLine b.line).addBranch b.descriptor).advance b.len

/-- Return (R155): append the line, advance by the size, end the pass. -/
def returnStep (mn : Text) (s : State) : State :=
  let b := s.bundle mn .imp []
  ((s.appendLine b.line).advance b.len).endPass

/-- Set or reset processor status (R130, R131): append the line, update the width flags from the captured operand byte,
advance by the size computed with the flags before the update (R133). -/
def statusStep (f : Byte → WidthState → WidthState) (mn : Text) (ops : List Byte) (s : State) : State :=
  let b := s.bundle mn .imm8 ops
  ((s.appendLine b.line).setWidth (widthUpdate f ops s.ws)).advance b.len

/-- Unknown opcode (R105): append the raw-byte line, advance by exactly 1. -/
def rawStep (op : Byte) (s : State) : State := (s.appendLine (rawLine s.pc op)).advance 1

end Sys2Proof.Machine
end

