-- ==== Sys2Proof/Machine/Branches.lean ====
section
/-! DEFINITION. The relative branches: each adds its resolved target to `BRANCHES` and none is followed. (spec/43_flow_control.md §2) -/

namespace Sys2Proof.Machine

open Sys2Proof

/-- `bpl` (`0x10`): R146, R145. -/
def execBpl (ops : List Byte) (s : State) : Host.Outcome State Fault Refusal := .next (branchStep mnBpl ops s)

/-- `bmi` (`0x30`): R147, R145. -/
def execBmi (ops : List Byte) (s : State) : Host.Outcome State Fault Refusal := .next (branchStep mnBmi ops s)

/-- `bvc` (`0x50`): R148, R145. -/
def execBvc (ops : List Byte) (s : State) : Host.Outcome State Fault Refusal := .next (branchStep mnBvc ops s)

/-- `bvs` (`0x70`): R149, R145. -/
def execBvs (ops : List Byte) (s : State) : Host.Outcome State Fault Refusal := .next (branchStep mnBvs ops s)

/-- `bra` (`0x80`; branch always, which the core decodes like any other branch): R150, R145. -/
def execBra (ops : List Byte) (s : State) : Host.Outcome State Fault Refusal := .next (branchStep mnBra ops s)

/-- `bcc` (`0x90`): R151, R145. -/
def execBcc (ops : List Byte) (s : State) : Host.Outcome State Fault Refusal := .next (branchStep mnBcc ops s)

/-- `bcs` (`0xB0`): R152, R145. -/
def execBcs (ops : List Byte) (s : State) : Host.Outcome State Fault Refusal := .next (branchStep mnBcs ops s)

/-- `bne` (`0xD0`): R153, R145. -/
def execBne (ops : List Byte) (s : State) : Host.Outcome State Fault Refusal := .next (branchStep mnBne ops s)

/-- `beq` (`0xF0`): R154, R145. -/
def execBeq (ops : List Byte) (s : State) : Host.Outcome State Fault Refusal := .next (branchStep mnBeq ops s)


end Sys2Proof.Machine
end

