-- ==== Sys2Proof/Machine/Calls.lean ====
section
/-! DEFINITION. The calls and jumps: each adds its target to `CALLS` and none is followed. (spec/43_flow_control.md §1) -/

namespace Sys2Proof.Machine

open Sys2Proof

/-- `jsr` (`0x20`; the near call): R141, R140. -/
def execJsr (ops : List Byte) (s : State) : Host.Outcome State Fault Refusal := .next (callStep mnJsr .abs ops s)

/-- `jsl` (`0x22`; the far call): R142, R140. -/
def execJsl (ops : List Byte) (s : State) : Host.Outcome State Fault Refusal := .next (callStep mnJsl .long ops s)

/-- `jmp` (`0x4C`; the absolute jump, which does not end the pass): R143, R140. -/
def execJmp (ops : List Byte) (s : State) : Host.Outcome State Fault Refusal := .next (callStep mnJmp .abs ops s)

/-- `jml` (`0x5C`; the far jump, which does not end the pass): R144, R140. -/
def execJml (ops : List Byte) (s : State) : Host.Outcome State Fault Refusal := .next (callStep mnJml .long ops s)


end Sys2Proof.Machine
end

