-- ==== Sys2Proof/Machine/Immediates.lean ====
section
/-! DEFINITION. The width-dependent immediates: the size follows the width flags. (spec/44_data_and_implicit.md §2) -/

namespace Sys2Proof.Machine

open Sys2Proof

/-- `lda #` (`0xA9`): R171, R170. -/
def execLdaImm (ops : List Byte) (s : State) : Host.Outcome State Fault Refusal := .next (plainStep mnLda .immM ops s)

/-- `and #` (`0x29`): R172, R170. -/
def execAndImm (ops : List Byte) (s : State) : Host.Outcome State Fault Refusal := .next (plainStep mnAnd .immM ops s)

/-- `cmp #` (`0xC9`): R173, R170. -/
def execCmpImm (ops : List Byte) (s : State) : Host.Outcome State Fault Refusal := .next (plainStep mnCmp .immM ops s)

/-- `ldx #` (`0xA2`): R174, R170. -/
def execLdxImm (ops : List Byte) (s : State) : Host.Outcome State Fault Refusal := .next (plainStep mnLdx .immX ops s)

/-- `ldy #` (`0xA0`): R175, R170. -/
def execLdyImm (ops : List Byte) (s : State) : Host.Outcome State Fault Refusal := .next (plainStep mnLdy .immX ops s)


end Sys2Proof.Machine
end

