-- ==== Sys2Proof/Machine/Implicit.lean ====
section
/-! DEFINITION. The implicit forms: a line and nothing else. (spec/44_data_and_implicit.md §4) -/

namespace Sys2Proof.Machine

open Sys2Proof

/-- `sei` (`0x78`): R181, R170. -/
def execSei (s : State) : Host.Outcome State Fault Refusal := .next (plainStep mnSei .imp [] s)

/-- `clc` (`0x18`): R182, R170. -/
def execClc (s : State) : Host.Outcome State Fault Refusal := .next (plainStep mnClc .imp [] s)

/-- `xce` (`0xFB`; it writes no width flag (R132)): R183, R170. -/
def execXce (s : State) : Host.Outcome State Fault Refusal := .next (plainStep mnXce .imp [] s)

/-- `nop` (`0xEA`): R184, R170. -/
def execNop (s : State) : Host.Outcome State Fault Refusal := .next (plainStep mnNop .imp [] s)


end Sys2Proof.Machine
end

