-- ==== Sys2Proof/Machine/MemoryForms.lean ====
section
/-! DEFINITION. The memory-operand forms: decoded to text, no load or store is performed (R185). (spec/44_data_and_implicit.md §3) -/

namespace Sys2Proof.Machine

open Sys2Proof

/-- `sta abs` (`0x8D`): R176, R170. -/
def execStaAbs (ops : List Byte) (s : State) : Host.Outcome State Fault Refusal := .next (plainStep mnSta .abs ops s)

/-- `lda abs` (`0xAD`): R177, R170. -/
def execLdaAbs (ops : List Byte) (s : State) : Host.Outcome State Fault Refusal := .next (plainStep mnLda .abs ops s)

/-- `lda abs,Y` (`0xB9`): R178, R170. -/
def execLdaAbsY (ops : List Byte) (s : State) : Host.Outcome State Fault Refusal := .next (plainStep mnLda .absY ops s)

/-- `sta dp,X` (`0x95`): R179, R170. -/
def execStaDpX (ops : List Byte) (s : State) : Host.Outcome State Fault Refusal := .next (plainStep mnSta .dpX ops s)

/-- `sta long` (`0x8F`): R180, R170. -/
def execStaLong (ops : List Byte) (s : State) : Host.Outcome State Fault Refusal := .next (plainStep mnSta .long ops s)


end Sys2Proof.Machine
end

