-- ==== Sys2Proof/Machine/RawByte.lean ====
section
/-! DEFINITION. The unknown opcode. (spec/30_encoding.md R69; spec/41_decode_loop.md R105) -/

namespace Sys2Proof.Machine

open Sys2Proof

/-- `.byte` (every opcode outside the table): R105. -/
def execByte (op : Byte) (s : State) : Host.Outcome State Fault Refusal := .next (rawStep op s)


end Sys2Proof.Machine
end

