-- ==== Sys2Proof/Machine/Returns.lean ====
section
/-! DEFINITION. The returns: each ends the pass. (spec/43_flow_control.md §3) -/

namespace Sys2Proof.Machine

open Sys2Proof

/-- `rts` (`0x60`; return from subroutine): R156, R155. -/
def execRts (s : State) : Host.Outcome State Fault Refusal := .next (returnStep mnRts s)

/-- `rtl` (`0x6B`; return from long subroutine): R157, R155. -/
def execRtl (s : State) : Host.Outcome State Fault Refusal := .next (returnStep mnRtl s)

/-- `rti` (`0x40`; return from interrupt, of the decoded processor and not of the core (R197)): R158, R155. -/
def execRti (s : State) : Host.Outcome State Fault Refusal := .next (returnStep mnRti s)


end Sys2Proof.Machine
end

