-- ==== Sys2Proof/Machine/WidthControl.lean ====
section
/-! DEFINITION. The width-control instructions, the only ones that write the width flags. (spec/42_width_control.md §2) -/

namespace Sys2Proof.Machine

open Sys2Proof

/-- `sep #imm8` (`0xE2`; set processor-status bits): R136, R130. -/
def execSep (ops : List Byte) (s : State) : Host.Outcome State Fault Refusal := .next (statusStep setStatus mnSep ops s)

/-- `rep #imm8` (`0xC2`; reset processor-status bits): R137, R131. -/
def execRep (ops : List Byte) (s : State) : Host.Outcome State Fault Refusal := .next (statusStep resetStatus mnRep ops s)


end Sys2Proof.Machine
end

