-- ==== Sys2Proof/Machine/Dispatch.lean ====
section
/-! DEFINITION. One arm per instruction, each a direct call of its meaning. -/

namespace Sys2Proof.Machine

open Sys2Proof

def exec (i : Instr) (s : State) : Host.Outcome State Fault Refusal :=
  match i with
  | .bpl ops => Sys2Proof.Machine.execBpl ops s
  | .bmi ops => Sys2Proof.Machine.execBmi ops s
  | .bvc ops => Sys2Proof.Machine.execBvc ops s
  | .bvs ops => Sys2Proof.Machine.execBvs ops s
  | .bra ops => Sys2Proof.Machine.execBra ops s
  | .bcc ops => Sys2Proof.Machine.execBcc ops s
  | .bcs ops => Sys2Proof.Machine.execBcs ops s
  | .bne ops => Sys2Proof.Machine.execBne ops s
  | .beq ops => Sys2Proof.Machine.execBeq ops s
  | .jsr ops => Sys2Proof.Machine.execJsr ops s
  | .jsl ops => Sys2Proof.Machine.execJsl ops s
  | .jmp ops => Sys2Proof.Machine.execJmp ops s
  | .jml ops => Sys2Proof.Machine.execJml ops s
  | .rts => Sys2Proof.Machine.execRts s
  | .rtl => Sys2Proof.Machine.execRtl s
  | .rti => Sys2Proof.Machine.execRti s
  | .sep ops => Sys2Proof.Machine.execSep ops s
  | .rep ops => Sys2Proof.Machine.execRep ops s
  | .ldaImm ops => Sys2Proof.Machine.execLdaImm ops s
  | .andImm ops => Sys2Proof.Machine.execAndImm ops s
  | .cmpImm ops => Sys2Proof.Machine.execCmpImm ops s
  | .ldxImm ops => Sys2Proof.Machine.execLdxImm ops s
  | .ldyImm ops => Sys2Proof.Machine.execLdyImm ops s
  | .staAbs ops => Sys2Proof.Machine.execStaAbs ops s
  | .ldaAbs ops => Sys2Proof.Machine.execLdaAbs ops s
  | .ldaAbsY ops => Sys2Proof.Machine.execLdaAbsY ops s
  | .staDpX ops => Sys2Proof.Machine.execStaDpX ops s
  | .staLong ops => Sys2Proof.Machine.execStaLong ops s
  | .sei => Sys2Proof.Machine.execSei s
  | .clc => Sys2Proof.Machine.execClc s
  | .xce => Sys2Proof.Machine.execXce s
  | .nop => Sys2Proof.Machine.execNop s
  | .byte op => Sys2Proof.Machine.execByte op s

end Sys2Proof.Machine
end

