-- ==== Sys2Proof/Machine/Step.lean ====
section
/-! DEFINITION. One step of the machine: a step of the Decode Loop while a pass runs, the launcher's next action
otherwise. (spec/41_decode_loop.md R100 to R104, R118; spec/60_exceptions.md R203) -/

namespace Sys2Proof.Machine

open Sys2Proof

/-- One step of the Decode Loop: fetch, decode, run (R103 to R116). -/
def decodeStep (s : State) : Host.Outcome State Fault Refusal :=
  match s.fetch refRom with
  | .error f => .fault f
  | .ok bytes =>
    match decode s.ws bytes with
    | .error .noOpcodeByte => .refused .noOpcodeByte
    | .ok (i, _) => exec i s

/-- The launcher's next action between passes (R118, R203): a launch starts the next pass, a change of the buffer changes
the buffer, and without an action no step is enabled. -/
def launcherStep (mapper : Byte → Addr → Nat) (s : State) : Host.Outcome State Fault Refusal :=
  match s.host with
  | [] => .refused .noStepEnabled
  | .launch buf raIn maxBytes :: rest => .next (({ s with host := rest } : State).launchWith mapper buf raIn maxBytes)
  | .changeBuffer buf :: rest => .next { s with buf := buf, host := rest }

/-- One step. In `RUN` the Decode Loop steps and a waiting launch is not read (R102, R203); a change of the buffer
during the pass is refused (R54). In `IDLE` and `DONE` the launcher acts. -/
def step (s : State) : Host.Outcome State Fault Refusal :=
  match s.phase with
  | .run =>
    match s.host with
    | .changeBuffer _ :: _ => .refused .bufferChangedDuringPass
    | _ => decodeStep s
  | .idle | .done => launcherStep linearOffset s

/-- `s` with the instruction of an opcode-table word stored at the cursor, inside a running pass whose window and buffer
hold it, so that the next step runs it (log 4). Changes of the buffer waiting at the head of the launcher's queue are
dropped, since a running pass would refuse them. -/
def State.withFetchWord (s : State) (nbits w : Nat) : State :=
  { s with
    buf := s.buf.putAll s.cur (tableBytes nbits w)
    start := min s.start s.cur
    endOff := max s.endOff (s.cur + maxLen)
    phase := .run
    host := s.host.dropWhile HostAction.changesBuffer }

end Sys2Proof.Machine
end

