-- ==== Sys2Proof/Machine/Sequencer.lean ====
section
/-! DEFINITION. The whole step as the spec's one piece of pseudocode, for every Opcode Table, class sets and mapper
(spec/41_decode_loop.md R116; spec/92_eei_decisions.md D5, D7, D18): what a claim about the repository's own table is
stated of. The step of Machine/Step.lean is the one for the reference fill. -/

namespace Sys2Proof.Machine

open Sys2Proof

/-- The parameters of the reference fill (R66, R68, R40). -/
def refParams : Params := { rom := refRom, classes := refClasses, mapper := linearOffset }

/-- Items 3d to 3j of a known opcode, in the source's order (R116, R194). -/
def knownStep (c : ClassSets) (mn : Text) (mode : Mode) (ops : List Byte) (s : State) : State :=
  let text := fmt mode ops s.pc
  let sz := instrSize mode s.ws
  let s := s.appendLine (knownLine s.pc mn text)
  let s := if mn ∈ c.call then s.addCall (descriptor mn text) else s
  let s := if mode = .rel then s.addBranch (descriptor mn text) else s
  let s := if mn ∈ c.sep then s.setWidth (widthUpdate setStatus ops s.ws) else s
  let s := if mn ∈ c.rep then s.setWidth (widthUpdate resetStatus ops s.ws) else s
  let s := { s with cur := s.cur + sz }
  if mn ∈ c.ret ∨ s.endOff ≤ s.cur then s.endPass else s

/-- One step of the Decode Loop over the Opcode Table `p.rom` (R116). -/
def sequencerStep (p : Params) (s : State) : Host.Outcome State Fault Refusal :=
  match s.readByte s.cur with
  | .error f => .fault f
  | .ok op =>
    match p.rom op with
    | none =>
      let s := s.appendLine (rawLine s.pc op)
      let s := { s with cur := s.cur + 1 }
      .next (if s.endOff ≤ s.cur then s.endPass else s)
    | some e =>
      match s.capture (s.cur + 1) (s.navail (instrSize e.mode s.ws)) with
      | .error f => .fault f
      | .ok ops => .next (knownStep p.classes e.mnemonic e.mode ops s)

/-- Whether the mode of an entry is one RC5 allows for its mnemonic's class (R63). -/
def entryAllowed (c : ClassSets) (e : Entry) : Bool :=
  (decide (e.mnemonic ∉ c.call) || decide (e.mode = .abs ∨ e.mode = .long)) &&
    (decide (¬(e.mnemonic ∈ c.call ∨ e.mnemonic ∈ c.ret ∨ e.mnemonic ∈ c.sep ∨ e.mnemonic ∈ c.rep)) || decide (e.mode ≠ .rel))

/-- Whether every entry of the Opcode Table satisfies RC5: the check behind I11. -/
def rc5Holds (p : Params) : Bool :=
  (List.range 256).all fun op => (p.rom (BitVec.ofNat 8 op)).all (entryAllowed p.classes)

/-- One step of the core with parameters `p` that satisfy RC5. -/
def stepAdmitted (p : Params) (s : State) : Host.Outcome State Fault Refusal :=
  match s.phase with
  | .run =>
    match s.host with
    | .changeBuffer _ :: _ => .refused .bufferChangedDuringPass
    | _ => sequencerStep p s
  | .idle | .done => launcherStep p.mapper s

/-- One step of the core with parameters `p`. "A ROM outside RC5 is refused": with such a table no step has a meaning
(spec/93_implementation_defined.md I11; log 22). -/
def stepWith (p : Params) (s : State) : Host.Outcome State Fault Refusal :=
  if rc5Holds p then stepAdmitted p s else .refused .tableOutsideRC5

/-- The core with parameters `p`, as a machine. -/
def coreWith (p : Params) : Host.Core :=
  { State := State, Fault := Fault, Refusal := Refusal, step := stepWith p, reset := State.reset }

end Sys2Proof.Machine
end

