-- ==== Sys2Proof/Safety.lean ====
section
/-! DEFINITION. The terms the claims use: the invariants of the core and what a step may and may not answer.
(spec/10_state.md R19 to R25; spec/20_memory.md R37; spec/41_decode_loop.md R102, R123, R124; spec/60_exceptions.md R190) -/

namespace Sys2Proof.Machine

open Sys2Proof

/-- A set of strings in canonical form: strictly ascending, so sorted and without duplicates (R121, R122). -/
def TextSet.Sorted (t : TextSet) : Prop := t.Pairwise fun a b => textLt a b = true

/-- The invariant of the core with mapper `mapper`. -/
structure State.Inv (mapper : Byte → Addr → Nat) (s : State) : Prop where
  /-- The buffer is in canonical form. -/
  bufWf : s.buf.wf = true
  /-- So is every buffer the launcher still holds. -/
  hostWf : ∀ a ∈ s.host, a.wf = true
  /-- `CALLS` is a set in canonical form. -/
  callsSorted : s.calls.Sorted
  /-- `BRANCHES` is a set in canonical form. -/
  branchesSorted : s.branches.Sorted
  /-- `START` is the mapped start address from the first launch on (R20). -/
  startMapped : s.phase ≠ .idle → s.start = mapper 0 s.ra
  /-- During a pass `END` is the window's limit (R21). -/
  windowEnd : s.phase = .run → s.endOff = min s.buf.len (s.start + s.maxBytes)
  /-- Every step starts inside the window (R102). -/
  inWindow : s.phase = .run → s.start ≤ s.cur ∧ s.cur < s.endOff
  /-- The cursor is never before the window and ends a pass at most 3 beyond it (R19). -/
  cursorBound : s.phase ≠ .idle → s.start ≤ s.cur ∧ s.cur ≤ max s.start (s.endOff + 3)
  /-- There is at most one line per byte stepped over (R123, R125). -/
  linesBound : s.phase ≠ .idle → s.lines.length ≤ s.cur - s.start

/-- Every descriptor is, in uppercase, the part of some line from the mnemonic on (R124): the line without its four
digits, colon and space. -/
def State.DescriptorsFromLines (s : State) : Prop :=
  ∀ d, d ∈ s.calls ∨ d ∈ s.branches → ∃ l ∈ s.lines, d = upper (l.drop 6)

/-- Every call descriptor begins with the uppercase mnemonic of a call-class instruction (R110, R112). -/
def State.CallsFromClass (c : ClassSets) (s : State) : Prop :=
  ∀ d ∈ s.calls, ∃ mn ∈ c.call, (upper mn ++ [' ']) <+: d

/-- The launcher does not change the buffer before its next launch: no action waits that a running pass would refuse
(R54). -/
def State.BufferStable (s : State) : Prop := ∀ b rest, s.host ≠ .changeBuffer b :: rest

/-- `s` stands inside its window, in a pass whose buffer stays put, and the byte at its cursor is `op` (R102, R104). -/
structure State.AtOpcode (s : State) (op : Byte) : Prop where
  running : s.phase = .run
  stable : s.BufferStable
  inside : s.start ≤ s.cur ∧ s.cur < s.endOff
  opcode : s.buf.read? s.cur = some op

/-- `s` stands at an opcode with entry `e` of the table, and `ops` are the operand bytes the step captures: the
`min(size - 1, END - CUR - 1)` bytes after the opcode (R106). -/
structure State.AtEntry (s : State) (p : Params) (op : Byte) (e : Entry) (ops : List Byte) : Prop
    extends s.AtOpcode op where
  entry : p.rom op = some e
  captured : ops.length = min (instrSize e.mode s.ws - 1) (s.endOff - s.cur - 1)
  bytes : ∀ j b, ops[j]? = some b → s.buf.read? (s.cur + 1 + j) = some b

/-- `s` after a step that appends `line` and advances the cursor by `n`, ending the pass if that exhausts the window, and
that changes nothing else (R105, R107, R114, R117). -/
def State.after (s : State) (line : Text) (n : Nat) : State :=
  { s with
    lines := s.lines ++ [line]
    cur := s.cur + n
    phase := if s.endOff ≤ s.cur + n then .done else s.phase }

/-- The line prefix of the step in state `s`: the program counter, a colon and a space (R108, R109). -/
def State.pcPrefix (s : State) : Text := hexN 4 s.pc.toNat ++ [':', ' ']

/-- `n` lines for the raw bytes `0x00` from program counter `pc` on. -/
def zeroLines (pc : Addr) : Nat → List Text
  | 0 => []
  | n + 1 => rawLine pc 0x00 :: zeroLines (pc + 1) n

end Sys2Proof.Machine
end

