-- ==== Sys2Proof/Certificates/Slice0/Obligations.lean ====
section
/-! DEFINITION. The statements for the provers, one `def Obligations.<Name> : Prop` each. A statement over `stepWith p` or
`coreWith p` is about the core with any Opcode Table, class sets and mapper `p` (spec/92_eei_decisions.md D5, D7, D18); one
over `exec` or `step` is about the reference fill (D6, log 2). -/

open Sys2Proof Sys2Proof.Machine

/-! ### Encoding -/

/-- Decode after encode: a well-formed instruction under any width state is read back from its bytes, alone or, when it is
complete, followed by any bytes. Rests on the reference fill (D6). -/
def Obligations.DecodeEncodeRoundTrip : Prop :=
  ∀ (ws : WidthState) (i : Instr) (rest : List Byte), i.wf ws = true → (rest = [] ∨ i.complete ws = true) →
    decode ws (encode i ++ rest) = .ok (i, rest)

/-- Encode after decode: whatever bytes decode, the instruction is well formed, and its bytes and the rest are exactly the
bytes read; and every non-empty sequence of bytes decodes. -/
def Obligations.EncodeDecodeRoundTrip : Prop :=
  (∀ (ws : WidthState) (bs : List Byte) (i : Instr) (rest : List Byte), decode ws bs = .ok (i, rest) →
    i.wf ws = true ∧ encode i ++ rest = bs) ∧
  ∀ (ws : WidthState) (bs : List Byte), bs ≠ [] → ∃ i rest, decode ws bs = .ok (i, rest)

/-- Words written out from the layouts of R58 and the rows of R68 decode to the instructions they stand for. -/
def Obligations.SampleBytesDecode : Prop :=
  decode ⟨true, true⟩ [0xA9, 0x01, 0x60] = .ok (.ldaImm [0x01], [0x60]) ∧
  decode ⟨false, true⟩ [0xA9, 0x34, 0x12, 0x60] = .ok (.ldaImm [0x34, 0x12], [0x60]) ∧
  decode ⟨true, false⟩ [0xA2, 0xFF, 0x01] = .ok (.ldxImm [0xFF, 0x01], []) ∧
  decode ⟨true, true⟩ [0x20, 0x00, 0x90] = .ok (.jsr [0x00, 0x90], []) ∧
  decode ⟨true, true⟩ [0x22, 0x34] = .ok (.jsl [0x34], []) ∧
  decode ⟨true, true⟩ [0xD0, 0xFE, 0xD0] = .ok (.bne [0xFE], [0xD0]) ∧
  decode ⟨true, true⟩ [0xE2, 0x30] = .ok (.sep [0x30], []) ∧
  decode ⟨true, true⟩ [0xB9, 0x00, 0x80] = .ok (.ldaAbsY [0x00, 0x80], []) ∧
  decode ⟨true, true⟩ [0x95, 0x10] = .ok (.staDpX [0x10], []) ∧
  decode ⟨true, true⟩ [0x60, 0xEA] = .ok (.rts, [0xEA]) ∧
  decode ⟨true, true⟩ [0xFB] = .ok (.xce, []) ∧
  decode ⟨true, true⟩ [0x00, 0xA9] = .ok (.byte 0x00, [0xA9])

/-- The reference fill with the class sets of R66 and the mapper of R40 satisfies RC1 to RC6. -/
def Obligations.ReferenceTableAdmissible : Prop := refParams.Admissible

/-! ### The combinational blocks -/

/-- The Operand Sizer, mode by mode (R64). -/
def Obligations.OperandSizerTable : Prop :=
  ∀ ws : WidthState,
    instrSize .imp ws = 1 ∧ instrSize .imm8 ws = 2 ∧ (instrSize .immM ws = if ws.m8 = true then 2 else 3) ∧
    (instrSize .immX ws = if ws.x8 = true then 2 else 3) ∧ instrSize .abs ws = 3 ∧ instrSize .absY ws = 3 ∧ instrSize .dpX ws = 2 ∧
    instrSize .long ws = 4 ∧ instrSize .rel ws = 2

/-- The Address Mapper (R40). -/
def Obligations.AddressMapperFormula : Prop :=
  ∀ (bank : Byte) (addr : Addr), linearOffset bank addr = bank.toNat * 0x8000 + (addr.toNat &&& 0x7FFF)

/-- The mapper's range, and that it ignores bit 15 of the address (the spec's derived R41). -/
def Obligations.AddressMapperRange : Prop :=
  ∀ (bank : Byte) (addr : Addr), linearOffset bank addr ≤ 0x7FFFFF ∧
    linearOffset bank (addr ||| 0x8000) = linearOffset bank addr ∧ linearOffset bank addr % 0x8000 = addr.toNat % 0x8000

/-- Operand text and size of every mode but `REL`, with the operand bytes assembled little-endian as a concatenation, most
significant byte first, and a missing byte zero (R44, R82 to R90; the zero is R81, the spec's decision D11, log 6). -/
def Obligations.OperandTextLittleEndian : Prop :=
  ∀ (ops : List Byte) (pc : Addr),
    let b0 := ops.getD 0 0
    let b1 := ops.getD 1 0
    let b2 := ops.getD 2 0
    let imm := if ops.length ≤ 1 then ['#', '$'] ++ hexN 2 b0.toNat else ['#', '$'] ++ hexN 4 (b1 ++ b0).toNat
    fmt .imp ops pc = [] ∧
    fmt .imm8 ops pc = ['#', '$'] ++ hexN 2 b0.toNat ∧
    fmt .immM ops pc = imm ∧
    fmt .immX ops pc = imm ∧
    fmt .abs ops pc = ['$'] ++ hexN 4 (b1 ++ b0).toNat ∧
    fmt .absY ops pc = ['$'] ++ hexN 4 (b1 ++ b0).toNat ++ [',', 'Y'] ∧
    fmt .dpX ops pc = ['$'] ++ hexN 2 b0.toNat ++ [',', 'X'] ∧
    fmt .long ops pc = ['$'] ++ hexN 6 (b2 ++ b1 ++ b0).toNat ∧
    ∀ ws : WidthState, instrSize .imp ws = 1 ∧ instrSize .imm8 ws = 2 ∧ instrSize .immM ws = (if ws.m8 = true then 2 else 3) ∧
      instrSize .immX ws = (if ws.x8 = true then 2 else 3) ∧ instrSize .abs ws = 3 ∧ instrSize .absY ws = 3 ∧
      instrSize .dpX ws = 2 ∧ instrSize .long ws = 4

/-- The branch-target resolver: the operand byte is a signed offset (R60) and the constant 2 is added whatever was
captured (R93); the target wraps modulo 65536 (the spec's derived R92; the formula is R91, decision D12). That no captured
byte is offset 0 is R81, the spec's decision D11 (log 6). -/
def Obligations.BranchTargetResolver : Prop :=
  (∀ (b : Byte) (pc : Addr), ((relTarget [b] pc).toNat : Int) =
    ((pc.toNat : Int) + 2 + (if b.toNat < 0x80 then (b.toNat : Int) else (b.toNat : Int) - 0x100)) % 65536) ∧
  (∀ pc : Addr, (relTarget [] pc).toNat = (pc.toNat + 2) % 65536)

/-- Hexadecimal rendering: exactly `n` digits out of `0`–`9` and `A`–`F`, which read back, most significant first, as
`v mod 16^n` (R12). -/
def Obligations.HexRenderingReadsBack : Prop :=
  ∀ n v : Nat, (hexN n v).length = n ∧
    (∀ c ∈ hexN n v, (48 ≤ c.toNat ∧ c.toNat ≤ 57) ∨ (65 ≤ c.toNat ∧ c.toNat ≤ 70)) ∧
    (hexN n v).foldl (fun acc c => 16 * acc + (if c.toNat < 58 then c.toNat - 48 else c.toNat - 55)) 0 = v % 16 ^ n

/-- A missing operand byte renders as zero in every mode whose width is fixed: appending zero bytes changes no text (the
spec's decision D11, R81). -/
def Obligations.MissingBytesRenderAsZero : Prop :=
  ∀ (mode : Mode) (ops : List Byte) (n : Nat) (pc : Addr), mode.widthDependent = false →
    fmt mode (ops ++ List.replicate n 0) pc = fmt mode ops pc

/-- The operand text is a function of the mode and the structured outputs (the spec's derived R94). -/
def Obligations.TextFromStructuredOutputs : Prop :=
  ∀ (mode : Mode) (ops : List Byte) (pc : Addr), fmt mode ops pc = renderOutputs mode (fmtOutputs mode ops pc)

/-- Lengths and characters of operand texts (the spec's derived R96). -/
def Obligations.OperandTextShapes : Prop :=
  ∀ (mode : Mode) (ops : List Byte) (pc : Addr),
    ((fmt mode ops pc).length = match mode with
      | .imp => 0
      | .imm8 => 4
      | .immM | .immX => if ops.length ≤ 1 then 4 else 6
      | .abs | .dpX | .rel => 5
      | .absY | .long => 7) ∧
    ∀ c ∈ fmt mode ops pc, c ∈ ['#', '$', ',', 'X', 'Y'] ∨ (48 ≤ c.toNat ∧ c.toNat ≤ 57) ∨ (65 ≤ c.toNat ∧ c.toNat ≤ 70)

/-- Toggling the flag of a width-dependent mode changes the size by exactly 1, the other flag never matters, and every
other mode's size is constant (the spec's derived R65). -/
def Obligations.WidthToggleChangesSizeByOne : Prop :=
  (∀ x, instrSize .immM ⟨false, x⟩ = instrSize .immM ⟨true, x⟩ + 1) ∧
  (∀ m, instrSize .immX ⟨m, false⟩ = instrSize .immX ⟨m, true⟩ + 1) ∧
  (∀ m x x', instrSize .immM ⟨m, x⟩ = instrSize .immM ⟨m, x'⟩) ∧
  (∀ m m' x, instrSize .immX ⟨m, x⟩ = instrSize .immX ⟨m', x⟩) ∧
  ∀ mode ws ws', Mode.widthDependent mode = false → instrSize mode ws = instrSize mode ws'

/-! ### Power-on, launch and the end of a pass -/

/-- Power-on: the phase is `IDLE`, no step is enabled and no output is valid (the spec's decision D15, R210; the other
registers' values are the model's choice, log 1, and nothing here rests on them). That the model's step answers the refusal
`noStepEnabled` there is the model's choice (log 7). -/
def Obligations.PowerOnIsIdle : Prop :=
  State.reset.phase = .idle ∧ step State.reset = .refused .noStepEnabled ∧ State.reset.result? = none

/-- Launch writes `RA`, `START` and `END` from its inputs, with the default budget `0x180` (R100), and initialises every
other register, whatever stood there (R101, which the spec marks as resting on its decision D3). The waiting action and the
launch as a step of its own are the model's form (log 3, log 20). -/
def Obligations.LaunchInitialises : Prop :=
  ∀ (s : State) (buf : Buffer) (raIn : Addr) (maxBytes : Option Nat) (rest : List HostAction),
    s.phase ≠ .run → s.host = .launch buf raIn maxBytes :: rest →
    ∃ t, step s = .next t ∧
      t.ra = raIn ∧ t.start = linearOffset 0 raIn ∧
      t.endOff = min buf.len (t.start + (match maxBytes with | some m => m | none => 0x180)) ∧
      t.buf = buf ∧ t.maxBytes = (match maxBytes with | some m => m | none => 0x180) ∧ t.ws = ⟨true, true⟩ ∧
      t.lines = [] ∧ t.calls = [] ∧ t.branches = [] ∧ t.cur = t.start ∧
      (t.phase = if t.start < t.endOff then .run else .done) ∧ t.host = rest ∧ t.pc = raIn

/-- No state crosses from one pass to the next: from any two states outside a pass with the same launch waiting, every
run of at least one step is the same (the spec's derived R51, R101, R127). -/
def Obligations.PassDependsOnLaunchInputs : Prop :=
  ∀ (p : Params) (s₁ s₂ : State) (buf : Buffer) (raIn : Addr) (maxBytes : Option Nat) (rest : List HostAction) (k : Nat),
    s₁.phase ≠ .run → s₂.phase ≠ .run → s₁.host = .launch buf raIn maxBytes :: rest → s₂.host = s₁.host →
    (coreWith p).run (k + 1) s₁ = (coreWith p).run (k + 1) s₂

/-- An empty window ends the pass at launch with the empty result (the spec's derived R126). -/
def Obligations.EmptyWindowGivesEmptyResult : Prop :=
  ∀ (s : State) (buf : Buffer) (raIn : Addr) (maxBytes : Option Nat) (rest : List HostAction),
    s.phase ≠ .run → s.host = .launch buf raIn maxBytes :: rest →
    (maxBytes = some 0 ∨ buf.len ≤ linearOffset 0 raIn) →
    ∃ t, step s = .next t ∧ t.phase = .done ∧ t.result? = some ⟨[], [], []⟩

/-- Outside a pass, and with no action waiting, no step is enabled (the spec's decision D3, R118). That the model's step
answers the refusal `noStepEnabled` there is the model's choice (log 7). The tables are those RC5 admits (log 22). -/
def Obligations.NoStepOutsidePass : Prop :=
  ∀ (p : Params) (s : State), p.RC5 → s.phase ≠ .run → s.host = [] → stepWith p s = .refused .noStepEnabled

/-- Outside a pass a waiting change of the buffer changes `BUF` and the queue and nothing else: every register and the
delivered result are as they were, so the result stays until the next launch (R118 and R203, the spec's decision D3). The
action itself is the model's form (log 3). -/
def Obligations.BufferChangeOutsidePassKeepsRegisters : Prop :=
  ∀ (p : Params) (s : State) (buf : Buffer) (rest : List HostAction), p.RC5 → s.phase ≠ .run →
    s.host = .changeBuffer buf :: rest →
    ∃ t, stepWith p s = .next t ∧ step s = .next t ∧ t.buf = buf ∧ t.host = rest ∧ t.result? = s.result? ∧ t.ws = s.ws ∧
      t.cur = s.cur ∧ t.start = s.start ∧ t.endOff = s.endOff ∧ t.ra = s.ra ∧ t.lines = s.lines ∧ t.calls = s.calls ∧
      t.branches = s.branches ∧ t.phase = s.phase ∧ t.maxBytes = s.maxBytes

/-- A change of the buffer during a pass is refused (the spec's decision D14, R54). The tables are those RC5 admits
(log 22). -/
def Obligations.BufferChangeDuringPassRefused : Prop :=
  ∀ (p : Params) (s : State) (buf : Buffer) (rest : List HostAction), p.RC5 → s.phase = .run →
    s.host = .changeBuffer buf :: rest → stepWith p s = .refused .bufferChangedDuringPass

/-- Outputs: a result exactly in `DONE`; the lines as accumulated, each set strictly ascending (so sorted and without
duplicates) with exactly the set's members (R119; "lexicographically" by character codes is R121, the spec's decision D13,
log 12). That no other phase has a result is R203 and R210 (decisions D3, D15), and the result as a function of the state is
the model's form (log 14). -/
def Obligations.ResultSortedWithoutDuplicates : Prop :=
  ∀ s : State, (s.phase ≠ .done → s.result? = none) ∧
    (s.phase = .done → ∃ r, s.result? = some r ∧ r.lines = s.lines ∧
      r.calls.Pairwise (fun a b => textLt a b = true) ∧ (∀ d, d ∈ r.calls ↔ d ∈ s.calls) ∧
      r.branches.Pairwise (fun a b => textLt a b = true) ∧ (∀ d, d ∈ r.branches ↔ d ∈ s.branches))

/-- Adding a descriptor already in a set leaves the set unchanged, adding any other adds exactly it, and so each distinct
string appears once in the output (R122). That a set is held as a strictly ascending list, and stays one, is the model's form
(log 14), in the order of the spec's decision D13 (log 12). -/
def Obligations.DuplicateDescriptorsAddNothing : Prop :=
  ∀ (t : TextSet) (d : Text), t.Sorted →
    (d ∈ t → TextSet.insert d t = t) ∧ (TextSet.insert d t).Sorted ∧
    (∀ x, x ∈ TextSet.insert d t ↔ x = d ∨ x ∈ t) ∧ (sortedSet t).count d = if d ∈ t then 1 else 0

/-- The order of R121 is a strict total order on strings (the spec's decision D13). -/
def Obligations.LexicographicOrderTotal : Prop :=
  (∀ a : Text, textLt a a = false) ∧
  (∀ a b c : Text, textLt a b = true → textLt b c = true → textLt a c = true) ∧
  (∀ a b : Text, a ≠ b → (textLt a b = true ↔ textLt b a = false)) ∧
  (∀ a b : Text, b ≠ [] → textLt a (a ++ b) = true) ∧
  (∀ (a : Text) (c d : Char) (u v : Text), c.toNat < d.toNat → textLt (a ++ c :: u) (a ++ d :: v) = true)

/-! ### The step, for every Opcode Table -/

/-- A table outside RC5 is refused: with such a table no step has a meaning, whatever the state (the spec's ruling I11 on
R63; that every single step answers the refusal is the model's form, log 22). -/
def Obligations.TableOutsideRC5Refused : Prop :=
  ∀ (p : Params) (s : State), ¬ p.RC5 → stepWith p s = .refused .tableOutsideRC5

/-- Unknown opcode: exactly one raw-byte line, the cursor 1 further, and nothing else (R105; the two uppercase digits are
the spec's decision D10). The tables are those RC5 admits; any other is refused (`TableOutsideRC5Refused`). -/
def Obligations.UnknownOpcodeEmitsRawByte : Prop :=
  ∀ (p : Params) (s : State) (op : Byte), p.RC5 → s.AtOpcode op → p.rom op = none →
    stepWith p s = .next (s.after (s.pcPrefix ++ ['.', 'b', 'y', 't', 'e', ' ', '$'] ++ hexN 2 op.toNat) 1)

/-- Known opcode: the operand bytes captured are those of R106, the line is that of R107, the call set grows by mnemonic
(R110), the branch set by mode (R111), the cursor advances by the full size even when truncated (R114), and a return ends
the pass (R115); with the window exhausted the pass ends too (R117, the spec's decision D2, log 20). `WS` stays unless the
mnemonic is a set- or reset-status one and an operand byte was captured, and then each flag whose bit is set in the first
one is written: 16-bit by a set-status, 8-bit by a reset-status one (R17, R113, R130 to R132; decision D22, log 15, and
conflict C7, log 9). The tables are those RC5 admits (log 22). -/
def Obligations.KnownOpcodeStep : Prop :=
  ∀ (p : Params) (s : State) (op : Byte) (e : Entry) (ops : List Byte), p.RC5 → s.AtEntry p op e ops →
    let text := fmt e.mode ops s.pc
    let size := instrSize e.mode s.ws
    let d := upper e.mnemonic ++ [' '] ++ text
    let flag := fun (bit : Nat) (old : Bool) => match ops with
      | [] => old
      | q :: _ =>
        if q.getLsbD bit = true ∧ e.mnemonic ∈ p.classes.rep then true
        else if q.getLsbD bit = true ∧ e.mnemonic ∈ p.classes.sep then false
        else old
    ∃ t, stepWith p s = .next t ∧
      t.lines = s.lines ++ [trim (s.pcPrefix ++ e.mnemonic ++ [' '] ++ text)] ∧
      t.calls = (if e.mnemonic ∈ p.classes.call then TextSet.insert d s.calls else s.calls) ∧
      t.branches = (if e.mode = .rel then TextSet.insert d s.branches else s.branches) ∧
      t.cur = s.cur + size ∧
      t.phase = (if e.mnemonic ∈ p.classes.ret ∨ s.endOff ≤ s.cur + size then .done else .run) ∧
      t.ws = ⟨flag 5 s.ws.m8, flag 4 s.ws.x8⟩ ∧
      t.start = s.start ∧ t.endOff = s.endOff ∧ t.ra = s.ra ∧ t.maxBytes = s.maxBytes ∧ t.host = s.host ∧
      t.buf.len = s.buf.len ∧ ∀ k, t.buf.read? k = s.buf.read? k

/-- A relative branch of any table appends its line, adds its descriptor with the resolved target to `BRANCHES`, advances
by 2 and does nothing else: `WS` and `CALLS` stay, and the pass goes on unless the window is exhausted (R145; the digits and
the `$` of the target are the spec's decision D12, log 11, the target of a truncated branch D11, log 6, and the exhausted
window D2, log 20). The tables are those RC5 admits (D17, log 22). -/
def Obligations.BranchClassStep : Prop :=
  ∀ (p : Params) (s : State) (op : Byte) (e : Entry) (ops : List Byte), p.RC5 → s.AtEntry p op e ops → e.mode = .rel →
    let target := ['$'] ++ hexN 4 (s.pc + 2 + (ops.getD 0 0).signExtend 16).toNat
    stepWith p s = .next { s.after (s.pcPrefix ++ e.mnemonic ++ [' '] ++ target) 2 with
      branches := TextSet.insert (upper e.mnemonic ++ [' '] ++ target) s.branches }

/-- A call or jump of an admissible table has an absolute or long operand, appends its line, adds its descriptor to
`CALLS`, advances by its size and does nothing else: `WS` stays, and the call itself does not end the pass (R140). That an
exhausted window ends it is R117, the spec's decision D2 (log 20); the modes are RC5, decision D17 (log 22). -/
def Obligations.CallClassStep : Prop :=
  ∀ (p : Params) (s : State) (op : Byte) (e : Entry) (ops : List Byte), p.Admissible → s.AtEntry p op e ops →
    e.mnemonic ∈ p.classes.call → (e.mode = .abs ∨ e.mode = .long) ∧
    stepWith p s = .next { s.after (knownLine s.pc e.mnemonic (fmt e.mode ops s.pc)) (instrSize e.mode s.ws) with
      calls := TextSet.insert (descriptor e.mnemonic (fmt e.mode ops s.pc)) s.calls }

/-- A return of an admissible table appends its line, advances by its size, ends the pass and does nothing else: no
descriptor, no `WS` change (R155). The premise that the table is admissible rests on RC4 to RC6 (log 22). -/
def Obligations.ReturnClassStep : Prop :=
  ∀ (p : Params) (s : State) (op : Byte) (e : Entry) (ops : List Byte), p.Admissible → s.AtEntry p op e ops →
    e.mnemonic ∈ p.classes.ret →
    stepWith p s = .next { s.after (knownLine s.pc e.mnemonic (fmt e.mode ops s.pc)) (instrSize e.mode s.ws) with
      phase := .done }

/-- An instruction of class `NONE` that is no branch appends its line, advances by its size and does nothing else
(R170). The tables are those RC5 admits; any other is refused (`TableOutsideRC5Refused`). -/
def Obligations.PlainClassStep : Prop :=
  ∀ (p : Params) (s : State) (op : Byte) (e : Entry) (ops : List Byte), p.RC5 → s.AtEntry p op e ops →
    classOf p.classes e.mnemonic = .none → e.mode ≠ .rel →
    stepWith p s = .next (s.after (trim (s.pcPrefix ++ e.mnemonic ++ [' '] ++ fmt e.mode ops s.pc)) (instrSize e.mode s.ws))

/-- A set-status instruction of an admissible table marks 16-bit the widths whose bits are set in its first captured
operand byte, a reset-status one marks them 8-bit, a truncated one writes neither; its own size does not depend on `WS`; it
adds no descriptor and ends no pass by itself (the spec's R130, R131 with decision D22, log 15, and conflict C7, log 9;
derived R133, R134). That an exhausted window ends the pass is R117, the spec's decision D2 (log 20), and the line of a
truncated one R81, decision D11 (log 6). The premise that the table is admissible rests on RC4 to RC6 (log 22). -/
def Obligations.StatusClassWritesWidth : Prop :=
  ∀ (p : Params) (s : State) (op : Byte) (e : Entry) (ops : List Byte) (to8 : Bool), p.Admissible →
    s.AtEntry p op e ops →
    ((to8 = false ∧ e.mnemonic ∈ p.classes.sep) ∨ (to8 = true ∧ e.mnemonic ∈ p.classes.rep)) →
    (∀ ws, instrSize e.mode ws = instrSize e.mode s.ws) ∧
    stepWith p s = .next { s.after (knownLine s.pc e.mnemonic (fmt e.mode ops s.pc)) (instrSize e.mode s.ws) with
      ws := ⟨match ops with | [] => s.ws.m8 | q :: _ => if q.getLsbD 5 = true then to8 else s.ws.m8,
             match ops with | [] => s.ws.x8 | q :: _ => if q.getLsbD 4 = true then to8 else s.ws.x8⟩ }

/-- The two opcodes the source fixes, in every admissible table with the class sets of R66: `0xA9` is `lda #` with the
size and the digits of the accumulator width (R171), and `0x60` is `rts`, one line with no operand and the end of the pass
(R155, R156). That an exhausted window ends the pass at `0xA9` is R170 and R117 (decision D2, log 20), and the digits of a
truncated one are R81 and R84 (decision D11, log 6). -/
def Obligations.SourceFixedOpcodes : Prop :=
  ∀ (p : Params) (s : State), p.Admissible → p.classes = refClasses →
    (∀ (e : Entry) (ops : List Byte), s.AtEntry p 0xA9 e ops →
      stepWith p s = .next (s.after (s.pcPrefix ++ ['l', 'd', 'a', ' ', '#', '$'] ++
        (if ops.length ≤ 1 then hexN 2 (ops.getD 0 0).toNat
         else hexN 4 ((ops.getD 0 0).toNat + 256 * (ops.getD 1 0).toNat))) (if s.ws.m8 = true then 2 else 3))) ∧
    (s.AtOpcode 0x60 →
      stepWith p s = .next { s.after (s.pcPrefix ++ ['r', 't', 's']) 1 with phase := .done })

/-- Exactly one line per step, appended in decode order (R23). -/
def Obligations.OneLinePerStep : Prop :=
  ∀ (p : Params) (s t : State), s.phase = .run → stepWith p s = .next t → ∃ line, t.lines = s.lines ++ [line]

/-- The cursor, and with it the program counter, advances by the length the opcode and `WS` give, 1 for an unknown opcode,
whatever was captured (the spec's derived R28, R71, R72). -/
def Obligations.CursorAdvancesByLength : Prop :=
  ∀ (p : Params) (s t : State) (op : Byte), s.AtOpcode op → stepWith p s = .next t →
    t.cur = s.cur + (match p.rom op with | none => 1 | some e => instrSize e.mode s.ws) ∧
    t.pc = s.pc + BitVec.ofNat 16 (t.cur - s.cur) ∧ 1 ≤ t.cur - s.cur ∧ t.cur - s.cur ≤ 4

/-- The program counter wraps at the top of the 16-bit space while the cursor keeps increasing (R29). -/
def Obligations.ProgramCounterWraps : Prop :=
  ∀ (p : Params) (s t : State) (op : Byte), s.AtOpcode op → lengthOf p.rom s.ws op = 1 → s.pc = 0xFFFF →
    stepWith p s = .next t → t.pc = 0x0000 ∧ t.cur = s.cur + 1

/-- Reads: in a pass `END` is at most `BUF_LEN`, and a step reads no byte outside `START <= k < END`: two buffers that agree
there give the same step (R37). -/
def Obligations.ReadsOnlyInsideWindow : Prop :=
  (∀ (p : Params) (s : State), s.Inv p.mapper → s.phase = .run → s.endOff ≤ s.buf.len) ∧
  ∀ (p : Params) (s : State) (b : Buffer), s.phase = .run →
    (∀ k, s.start ≤ k → k < s.endOff → b.read? k = s.buf.read? k) →
    stepWith p { s with buf := b } = match stepWith p s with
      | .next t => .next { t with buf := b }
      | .fault f => .fault f
      | .refused r => .refused r

/-- `START` is the mapped start address and is constant during a pass, and so are the other launch inputs; no byte of the
buffer changes (R20). -/
def Obligations.WindowConstantDuringPass : Prop :=
  ∀ s t : State, s.Inv linearOffset → s.phase = .run → step s = .next t →
    t.start = linearOffset 0 t.ra ∧ t.start = s.start ∧ t.endOff = s.endOff ∧ t.ra = s.ra ∧ t.maxBytes = s.maxBytes ∧
    t.buf.len = s.buf.len ∧ ∀ k, t.buf.read? k = s.buf.read? k

/-! ### The machine with the reference fill -/

/-- A step runs the decoded instruction: where the bytes of a well-formed instruction stand at the cursor, clipped only by
the end of the window, the step is `exec` of that instruction at that state. -/
def Obligations.StepRunsDecodedInstruction : Prop :=
  ∀ (s : State) (i : Instr), s.AtOpcode i.opcode → i.wf s.ws = true →
    (encode i).length = min (lengthOf refRom s.ws i.opcode) (s.endOff - s.cur) →
    (∀ j b, (encode i)[j]? = some b → s.buf.read? (s.cur + j) = some b) →
    step s = exec i s

/-- The machine is the spec's sequencer with the reference fill: the dispatch over instructions, each with its own meaning,
does exactly what the pseudocode of R116 does, in every state (the spec's derived R116). -/
def Obligations.StepRefinesSequencer : Prop := ∀ s : State, step s = stepWith refParams s

/-- The word a test stores is the instruction that runs next (log 4). -/
def Obligations.FetchWordRunsNext : Prop :=
  ∀ (s : State) (nbits w : Nat) (i : Instr) (rest : List Byte), s.buf.wf = true →
    decode s.ws (tableBytes nbits w) = .ok (i, rest) →
    step (s.withFetchWord nbits w) = exec i (s.withFetchWord nbits w)

/-- Each branch completes: one line, its resolved target in `BRANCHES` under the uppercase mnemonic, 2 bytes, and nothing
else, whatever its operand bytes (R145 to R154 over the reference fill, log 2). That an exhausted window ends the pass is
R117, the spec's decision D2 (log 20); the target without a captured byte is R81, decision D11 (log 6), and its rendering
R91, decision D12 (log 11). -/
def Obligations.BranchInstructionsComplete : Prop :=
  ∀ (ops : List Byte) (s : State),
    let target := ['$'] ++ hexN 4 (s.pc + 2 + (ops.getD 0 0).signExtend 16).toNat
    ∀ x ∈ [(Instr.bpl ops, ['b', 'p', 'l'], ['B', 'P', 'L']), (Instr.bmi ops, ['b', 'm', 'i'], ['B', 'M', 'I']),
      (Instr.bvc ops, ['b', 'v', 'c'], ['B', 'V', 'C']), (Instr.bvs ops, ['b', 'v', 's'], ['B', 'V', 'S']),
      (Instr.bra ops, ['b', 'r', 'a'], ['B', 'R', 'A']), (Instr.bcc ops, ['b', 'c', 'c'], ['B', 'C', 'C']),
      (Instr.bcs ops, ['b', 'c', 's'], ['B', 'C', 'S']), (Instr.bne ops, ['b', 'n', 'e'], ['B', 'N', 'E']),
      (Instr.beq ops, ['b', 'e', 'q'], ['B', 'E', 'Q'])],
      exec x.1 s = .next { s.after (s.pcPrefix ++ x.2.1 ++ [' '] ++ target) 2 with
        branches := TextSet.insert (x.2.2 ++ [' '] ++ target) s.branches }

/-- Each call and jump completes: one line, its target in `CALLS` under the uppercase mnemonic, its size, and nothing else
(R141 to R144 over the reference fill, log 2). That an exhausted window ends the pass is R117, the spec's decision D2
(log 20), and the zero fill of short operands R81, decision D11 (log 6). -/
def Obligations.CallInstructionsComplete : Prop :=
  ∀ (ops : List Byte) (s : State),
    let b := fun j => (ops.getD j 0).toNat
    let near := ['$'] ++ hexN 4 (b 0 + 256 * b 1)
    let far := ['$'] ++ hexN 6 (b 0 + 256 * b 1 + 65536 * b 2)
    ∀ x ∈ [(Instr.jsr ops, ['j', 's', 'r'], ['J', 'S', 'R'], near, 3), (Instr.jmp ops, ['j', 'm', 'p'], ['J', 'M', 'P'], near, 3),
      (Instr.jsl ops, ['j', 's', 'l'], ['J', 'S', 'L'], far, 4), (Instr.jml ops, ['j', 'm', 'l'], ['J', 'M', 'L'], far, 4)],
      exec x.1 s = .next { s.after (s.pcPrefix ++ x.2.1 ++ [' '] ++ x.2.2.2.1) x.2.2.2.2 with
        calls := TextSet.insert (x.2.2.1 ++ [' '] ++ x.2.2.2.1) s.calls }

/-- Each return completes: one line without a trailing space, 1 byte, the end of the pass, and nothing else (R156 to R158
over the reference fill). -/
def Obligations.ReturnInstructionsComplete : Prop :=
  ∀ s : State, ∀ x ∈ [(Instr.rts, ['r', 't', 's']), (Instr.rtl, ['r', 't', 'l']), (Instr.rti, ['r', 't', 'i'])],
    exec x.1 s = .next { s.after (s.pcPrefix ++ x.2) 1 with phase := .done }

/-- `sep` and `rep` complete: one line, 2 bytes, each width flag whose bit is set in the operand byte written, with the
source's polarity, and nothing else (R136, R137 over the reference fill, log 2; conflict C7, log 9). That an exhausted
window ends the pass is R117, the spec's decision D2 (log 20), and the line of a truncated one R81, decision D11 (log 6). -/
def Obligations.StatusInstructionsComplete : Prop :=
  ∀ (ops : List Byte) (s : State),
    let operand := [' ', '#', '$'] ++ hexN 2 (ops.getD 0 0).toNat
    let m := (ops.getD 0 0).getLsbD 5
    let x := (ops.getD 0 0).getLsbD 4
    exec (.sep ops) s = .next { s.after (s.pcPrefix ++ ['s', 'e', 'p'] ++ operand) 2 with
      ws := ⟨!m && s.ws.m8, !x && s.ws.x8⟩ } ∧
    exec (.rep ops) s = .next { s.after (s.pcPrefix ++ ['r', 'e', 'p'] ++ operand) 2 with
      ws := ⟨m || s.ws.m8, x || s.ws.x8⟩ }

/-- Each width-dependent immediate completes: one line with two digits for at most one captured byte and four for two, the
size of its own width flag, and nothing else (R171 to R175 over the reference fill, log 2). That an exhausted window ends the
pass is R170 and R117, the spec's decision D2 (log 20), and the digits of a truncated one R81 and R84, decision D11
(log 6). -/
def Obligations.ImmediateInstructionsComplete : Prop :=
  ∀ (ops : List Byte) (s : State),
    let operand := [' ', '#', '$'] ++ (if ops.length ≤ 1 then hexN 2 (ops.getD 0 0).toNat
      else hexN 4 ((ops.getD 0 0).toNat + 256 * (ops.getD 1 0).toNat))
    (∀ x ∈ [(Instr.ldaImm ops, ['l', 'd', 'a']), (Instr.andImm ops, ['a', 'n', 'd']), (Instr.cmpImm ops, ['c', 'm', 'p'])],
      exec x.1 s = .next (s.after (s.pcPrefix ++ x.2 ++ operand) (if s.ws.m8 = true then 2 else 3))) ∧
    ∀ x ∈ [(Instr.ldxImm ops, ['l', 'd', 'x']), (Instr.ldyImm ops, ['l', 'd', 'y'])],
      exec x.1 s = .next (s.after (s.pcPrefix ++ x.2 ++ operand) (if s.ws.x8 = true then 2 else 3))

/-- Each memory-operand form completes: one line, its size, and nothing else: no byte is loaded or stored (R176 to R180,
R185 over the reference fill, log 2). That an exhausted window ends the pass is R170 and R117, the spec's decision D2
(log 20), and the zero fill of short operands R81, decision D11 (log 6). -/
def Obligations.MemoryFormInstructionsComplete : Prop :=
  ∀ (ops : List Byte) (s : State),
    let b := fun j => (ops.getD j 0).toNat
    let near := [' ', '$'] ++ hexN 4 (b 0 + 256 * b 1)
    let far := [' ', '$'] ++ hexN 6 (b 0 + 256 * b 1 + 65536 * b 2)
    exec (.staAbs ops) s = .next (s.after (s.pcPrefix ++ ['s', 't', 'a'] ++ near) 3) ∧
    exec (.ldaAbs ops) s = .next (s.after (s.pcPrefix ++ ['l', 'd', 'a'] ++ near) 3) ∧
    exec (.ldaAbsY ops) s = .next (s.after (s.pcPrefix ++ ['l', 'd', 'a'] ++ near ++ [',', 'Y']) 3) ∧
    exec (.staDpX ops) s = .next (s.after (s.pcPrefix ++ ['s', 't', 'a', ' ', '$'] ++ hexN 2 (b 0) ++ [',', 'X']) 2) ∧
    exec (.staLong ops) s = .next (s.after (s.pcPrefix ++ ['s', 't', 'a'] ++ far) 4)

/-- Each implicit form and each raw byte completes: one line, 1 byte, and nothing else; `xce` writes no width flag (R181 to
R184 over the reference fill, log 2; R105). That an exhausted window ends the pass after an implicit form is R117, the spec's
decision D2 (log 20); the two uppercase digits of a raw byte are decision D10 (log 11). -/
def Obligations.OneByteInstructionsComplete : Prop :=
  (∀ s : State, ∀ x ∈ [(Instr.sei, ['s', 'e', 'i']), (Instr.clc, ['c', 'l', 'c']), (Instr.xce, ['x', 'c', 'e']),
      (Instr.nop, ['n', 'o', 'p'])], exec x.1 s = .next (s.after (s.pcPrefix ++ x.2) 1)) ∧
  ∀ (op : Byte) (s : State),
    exec (.byte op) s = .next (s.after (s.pcPrefix ++ ['.', 'b', 'y', 't', 'e', ' ', '$'] ++ hexN 2 op.toNat) 1)

/-- The frame of every instruction: no instruction other than `sep` and `rep` writes `WS`, none other than a call or jump
writes `CALLS`, none other than a branch writes `BRANCHES`; none writes `START`, `END`, `RA`, the launch inputs or any byte
of the buffer; each appends one line; and only a return or the exhausted window ends the pass (R132, R140, R145, R155, R159
over the reference fill, log 2; that an exhausted window ends it is R117, the spec's decision D2, log 20). -/
def Obligations.InstructionFrames : Prop :=
  ∀ (i : Instr) (s t : State), exec i s = .next t →
    (t.ws ≠ s.ws → i = .sep i.ops ∨ i = .rep i.ops) ∧
    (t.calls ≠ s.calls → i = .jsr i.ops ∨ i = .jsl i.ops ∨ i = .jmp i.ops ∨ i = .jml i.ops) ∧
    (t.branches ≠ s.branches → i.opcode ∈ [0x10, 0x30, 0x50, 0x70, 0x80, 0x90, 0xB0, 0xD0, 0xF0]) ∧
    t.start = s.start ∧ t.endOff = s.endOff ∧ t.ra = s.ra ∧ t.maxBytes = s.maxBytes ∧ t.host = s.host ∧
    (∀ k, t.buf.read? k = s.buf.read? k) ∧ t.buf.len = s.buf.len ∧ (∃ line, t.lines = s.lines ++ [line]) ∧ s.cur < t.cur ∧
    (s.phase = .run → (t.phase = .run ∨ t.phase = .done) ∧
      (t.phase = .done ↔ i = .rts ∨ i = .rtl ∨ i = .rti ∨ s.endOff ≤ t.cur))

/-- The width state reaches a step only through the length: under another width state that gives the same length, an
instruction does the same to everything but `WS` (the spec's R17, R33, R95 over the reference fill). -/
def Obligations.WidthReadOnlyBySizer : Prop :=
  ∀ (i : Instr) (s : State) (w : WidthState), i.wf s.ws = true →
    lengthOf refRom w i.opcode = lengthOf refRom s.ws i.opcode →
    ∃ t t', exec i s = .next t ∧ exec i { s with ws := w } = .next t' ∧ { t' with ws := t.ws } = t

/-! ### Invariants -/

/-- Power-on meets the invariant, and has no descriptor without a line. It rests on the model's choice of empty sets and an
empty buffer at power-on (log 1). -/
def Obligations.PowerOnMeetsInvariant : Prop :=
  State.reset.Inv linearOffset ∧ State.reset.DescriptorsFromLines ∧ State.reset.CallsFromClass refClasses

/-- Every step keeps the invariant: for the machine, and for the core with any Opcode Table, class sets and mapper. -/
def Obligations.StepKeepsInvariant : Prop :=
  (∀ s s' : State, s.Inv linearOffset → step s = .next s' → s'.Inv linearOffset) ∧
  ∀ (p : Params) (s s' : State), s.Inv p.mapper → stepWith p s = .next s' → s'.Inv p.mapper

/-- With any admissible table, every step keeps that each descriptor is, in uppercase, the part of some line from the
mnemonic on, and that each call descriptor begins with a call mnemonic (the spec's derived R124). -/
def Obligations.StepKeepsDescriptorsFromLines : Prop :=
  ∀ (p : Params) (s s' : State), p.Admissible → stepWith p s = .next s' →
    (s.DescriptorsFromLines → s'.DescriptorsFromLines) ∧ (s.CallsFromClass p.classes → s'.CallsFromClass p.classes)

/-- The core raises no exception: from a state that meets the invariant no step faults, and with a table RC5 admits
(log 22), during a pass with a stable buffer every step answers a next state, and the pass ends in `DONE`, with a complete
result, after at most `END - CUR` steps (R190; the bound is the spec's derived R123). -/
def Obligations.EveryPassEndsWithoutFault : Prop :=
  ∀ (p : Params) (s : State), s.Inv p.mapper →
    (∀ f, stepWith p s ≠ .fault f) ∧
    (p.RC5 → s.phase = .run → s.BufferStable →
      (∃ t, stepWith p s = .next t) ∧
      ∃ (k : Nat) (t : State), k ≤ s.endOff - s.cur ∧ (coreWith p).run k s = .next t ∧ t.phase = .done ∧
        ∃ r, t.result? = some r)

/-- A run of unknown `0x00` bytes up to the end of the window: exactly one raw-byte line a byte, in order, and then `DONE`
(the source's property S6, the spec's derived R123). The tables are those RC5 admits (log 22). -/
def Obligations.ZeroBytesDecodeToRawLines : Prop :=
  ∀ (p : Params) (s : State), p.RC5 → p.rom 0x00 = none → s.AtOpcode 0x00 →
    (∀ k, s.cur ≤ k → k < s.endOff → s.buf.read? k = some 0x00) →
    (coreWith p).run (s.endOff - s.cur) s = .next { s with
      lines := s.lines ++ zeroLines s.pc (s.endOff - s.cur), cur := s.endOff, phase := .done }

/-- A pass whose first opcode is a return yields exactly one line and empty sets (the source's property S7, the spec's
derived R125). -/
def Obligations.SingleReturnPass : Prop :=
  ∀ (p : Params) (s : State) (buf : Buffer) (raIn : Addr) (maxBytes : Option Nat) (rest : List HostAction)
    (op : Byte) (e : Entry), p.Admissible → s.phase ≠ .run → s.host = .launch buf raIn maxBytes :: rest →
    (∀ b rest', rest ≠ .changeBuffer b :: rest') → maxBytes ≠ some 0 →
    buf.read? (p.mapper 0 raIn) = some op → p.rom op = some e → e.mnemonic ∈ p.classes.ret →
    ∃ (t : State) (line : Text), (coreWith p).run 2 s = .next t ∧ t.phase = .done ∧ t.result? = some ⟨[line], [], []⟩

/-- The source's end-to-end example (S8), in every admissible table with the class sets of R66 and the mapper of R40:
`A9 01 60` at `0x8000` gives the two lines of the source and empty sets. -/
def Obligations.SourceEndToEndExample : Prop :=
  ∀ rom : Rom, (Params.mk rom refClasses linearOffset).Admissible →
    ∃ t, (coreWith ⟨rom, refClasses, linearOffset⟩).run 3
        { State.reset with host := [.launch (Buffer.ofBytes [0xA9, 0x01, 0x60]) 0x8000 none] } = .next t ∧
      t.result? = some ⟨[['8', '0', '0', '0', ':', ' ', 'l', 'd', 'a', ' ', '#', '$', '0', '1'],
        ['8', '0', '0', '2', ':', ' ', 'r', 't', 's']], [], []⟩
end

