-- ==== Sys2Proof/Laws/Memory.lean ====
section
/-! SUPPORT. Laws of the buffer: read after write, and that every operation keeps the canonical form. -/

namespace Sys2Proof.Machine

open Sys2Proof

theorem Memory.wfFrom_mono {m : Memory} {lo lo' : Nat} (h : Memory.wfFrom lo m = true) (hl : lo' ≤ lo) :
    Memory.wfFrom lo' m = true := by
  cases m with
  | nil => rfl
  | cons c rest =>
    obtain ⟨a, b⟩ := c
    simp only [Memory.wfFrom, Bool.and_eq_true, decide_eq_true_eq] at h ⊢
    exact ⟨⟨by omega, h.1.2⟩, h.2⟩

/-- An offset below every listed one reads as unlisted. -/
theorem Memory.read_lt_of_wfFrom {m : Memory} {lo k : Nat} (h : Memory.wfFrom lo m = true) (hk : k < lo) :
    m.read k = Memory.unlisted := by
  induction m generalizing lo with
  | nil => rfl
  | cons c rest ih =>
    obtain ⟨a, b⟩ := c
    simp only [Memory.wfFrom, Bool.and_eq_true, decide_eq_true_eq] at h
    have hne : k ≠ a := by omega
    simp only [Memory.read, hne, if_false]
    exact ih h.2 (by omega)

/-- Writing keeps the canonical form. -/
theorem Memory.write_wfFrom {m : Memory} {lo : Nat} (k : Nat) (v : Byte) (h : Memory.wfFrom lo m = true) (hk : lo ≤ k) :
    Memory.wfFrom lo (m.write k v) = true := by
  induction m generalizing lo with
  | nil =>
    simp only [Memory.write]
    split
    · rfl
    · simp [Memory.wfFrom, *]
  | cons c rest ih =>
    obtain ⟨a, b⟩ := c
    have h' := h
    simp only [Memory.wfFrom, Bool.and_eq_true, decide_eq_true_eq] at h'
    obtain ⟨⟨hlo, hb⟩, hrest⟩ := h'
    simp only [Memory.write]
    split
    · split
      · exact h
      · simp only [Memory.wfFrom, Bool.and_eq_true, decide_eq_true_eq]
        exact ⟨⟨hk, ‹_›⟩, ⟨by omega, hb⟩, hrest⟩
    · split
      · split
        · exact Memory.wfFrom_mono hrest (by omega)
        · subst_vars
          simp only [Memory.wfFrom, Bool.and_eq_true, decide_eq_true_eq]
          exact ⟨⟨hlo, ‹_›⟩, hrest⟩
      · simp only [Memory.wfFrom, Bool.and_eq_true, decide_eq_true_eq]
        exact ⟨⟨hlo, hb⟩, ih hrest (by omega)⟩

theorem Memory.write_wf {m : Memory} (k : Nat) (v : Byte) (h : m.wf = true) : (m.write k v).wf = true :=
  Memory.write_wfFrom k v h (Nat.zero_le k)

/-- A read after a write to the same offset gives the byte written. -/
theorem Memory.read_write_same {m : Memory} {lo : Nat} (k : Nat) (v : Byte) (h : Memory.wfFrom lo m = true) :
    (m.write k v).read k = v := by
  induction m generalizing lo with
  | nil => simp only [Memory.write]; split <;> simp_all [Memory.read]
  | cons c rest ih =>
    obtain ⟨a, b⟩ := c
    simp only [Memory.wfFrom, Bool.and_eq_true, decide_eq_true_eq] at h
    simp only [Memory.write]
    split
    · split
      · rename_i hv
        have hne : k ≠ a := by omega
        simp only [Memory.read, hne, if_false, hv]
        exact Memory.read_lt_of_wfFrom h.2 (by omega)
      · simp [Memory.read]
    · split
      · split
        · rename_i hv
          rw [hv]
          exact Memory.read_lt_of_wfFrom h.2 (by omega)
        · simp [Memory.read]
      · rename_i hne
        simp only [Memory.read, hne, if_false]
        exact ih h.2

/-- A write leaves every other offset alone. -/
theorem Memory.read_write_other {m : Memory} (k j : Nat) (v : Byte) (hj : j ≠ k) :
    (m.write k v).read j = m.read j := by
  induction m with
  | nil => simp only [Memory.write]; split <;> simp [Memory.read, hj]
  | cons c rest ih =>
    obtain ⟨a, b⟩ := c
    simp only [Memory.write]
    split
    · split
      · rfl
      · simp [Memory.read, hj]
    · split
      · subst_vars
        split <;> simp [Memory.read, hj]
      · simp only [Memory.read, ih]

theorem Memory.write_lt {m : Memory} {n : Nat} (k : Nat) (v : Byte) (h : ∀ c ∈ m, c.1 < n) (hk : k < n) :
    ∀ c ∈ m.write k v, c.1 < n := by
  induction m with
  | nil => simp only [Memory.write]; split <;> simp [hk]
  | cons c rest ih =>
    obtain ⟨a, b⟩ := c
    have ha : a < n := h (a, b) (by simp)
    have hr : ∀ c ∈ rest, c.1 < n := fun c hc => h c (by simp [hc])
    simp only [Memory.write]
    split
    · split
      · exact h
      · intro c hc
        rcases List.mem_cons.1 hc with rfl | hc
        · exact hk
        · exact h c hc
    · split
      · split
        · exact hr
        · intro c hc
          rcases List.mem_cons.1 hc with rfl | hc
          · exact hk
          · exact hr c hc
      · intro c hc
        rcases List.mem_cons.1 hc with rfl | hc
        · exact ha
        · exact ih hr c hc

theorem Buffer.wf_iff (b : Buffer) : b.wf = true ↔ b.cells.wf = true ∧ ∀ c ∈ b.cells, c.1 < b.len := by
  simp [Buffer.wf]

/-- Putting a byte keeps the canonical form. -/
theorem Buffer.put_wf {b : Buffer} (k : Nat) (v : Byte) (h : b.wf = true) : (b.put k v).wf = true := by
  rw [Buffer.wf_iff] at h ⊢
  refine ⟨Memory.write_wf k v h.1, Memory.write_lt k v (fun c hc => ?_) ?_⟩
  · have := h.2 c hc
    simp only [Buffer.put]
    omega
  · simp only [Buffer.put]
    omega

theorem Buffer.putAll_wf {b : Buffer} (k : Nat) (vs : List Byte) (h : b.wf = true) : (b.putAll k vs).wf = true := by
  induction vs generalizing b k with
  | nil => exact h
  | cons v vs ih => exact ih (k + 1) (Buffer.put_wf k v h)

theorem Buffer.ofBytes_wf (bs : List Byte) : (Buffer.ofBytes bs).wf = true := Buffer.putAll_wf 0 bs rfl

theorem Buffer.read?_put_same {b : Buffer} (k : Nat) (v : Byte) (h : b.wf = true) : (b.put k v).read? k = some v := by
  have hk : k < max b.len (k + 1) := by omega
  simp only [Buffer.read?, Buffer.put, hk, if_true]
  exact congrArg some (Memory.read_write_same k v ((Buffer.wf_iff b).1 h).1)

theorem Buffer.read?_put_lt {b : Buffer} (k j : Nat) (v : Byte) (hj : j < b.len) (hne : j ≠ k) :
    (b.put k v).read? j = b.read? j := by
  have hj' : j < max b.len (k + 1) := by omega
  simp only [Buffer.read?, Buffer.put, hj, hj', if_true, Memory.read_write_other k j v hne]

theorem Buffer.put_len (b : Buffer) (k : Nat) (v : Byte) : (b.put k v).len = max b.len (k + 1) := rfl

theorem Buffer.putAll_len_le (b : Buffer) (k : Nat) (vs : List Byte) : b.len ≤ (b.putAll k vs).len := by
  induction vs generalizing b k with
  | nil => exact Nat.le_refl _
  | cons v vs ih => exact Nat.le_trans (by simp only [Buffer.put_len]; omega) (ih (b.put k v) (k + 1))

/-- Bytes put from a later offset on leave an earlier one alone. -/
theorem Buffer.read?_putAll_before {b : Buffer} (k j : Nat) (vs : List Byte) (hj : j < b.len) (hlt : j < k) :
    (b.putAll k vs).read? j = b.read? j := by
  induction vs generalizing b k with
  | nil => rfl
  | cons v vs ih =>
    rw [Buffer.putAll, ih (k + 1) (by rw [Buffer.put_len]; omega) (by omega)]
    exact Buffer.read?_put_lt k j v hj (by omega)

/-- Each byte put is read back. -/
theorem Buffer.read?_putAll {b : Buffer} (k j : Nat) (vs : List Byte) (h : b.wf = true) (hj : j < vs.length) :
    (b.putAll k vs).read? (k + j) = vs[j]? := by
  induction vs generalizing b k j with
  | nil => simp at hj
  | cons v vs ih =>
    cases j with
    | zero =>
      have hb : k < (b.put k v).len := by rw [Buffer.put_len]; omega
      rw [Buffer.putAll, show k + 0 = k from rfl, Buffer.read?_putAll_before (k + 1) k vs hb (by omega)]
      simpa using Buffer.read?_put_same k v h
    | succ j =>
      have := ih (b := b.put k v) (k + 1) j (Buffer.put_wf k v h) (by simpa using hj)
      rw [Buffer.putAll, show k + (j + 1) = k + 1 + j by omega, this]
      simp

end Sys2Proof.Machine
end

