-- ==== Sys2Proof/Laws/State.lean ====
section
/-! SUPPORT. One lemma per field of State per update of it, and the effect of the updates on the program counter. -/

namespace Sys2Proof.Machine

open Sys2Proof

@[simp] theorem State.appendLine_ws (s : State) (l : Text) : (s.appendLine l).ws = s.ws := rfl
@[simp] theorem State.appendLine_cur (s : State) (l : Text) : (s.appendLine l).cur = s.cur := rfl
@[simp] theorem State.appendLine_start (s : State) (l : Text) : (s.appendLine l).start = s.start := rfl
@[simp] theorem State.appendLine_endOff (s : State) (l : Text) : (s.appendLine l).endOff = s.endOff := rfl
@[simp] theorem State.appendLine_ra (s : State) (l : Text) : (s.appendLine l).ra = s.ra := rfl
@[simp] theorem State.appendLine_lines (s : State) (l : Text) : (s.appendLine l).lines = s.lines ++ [l] := rfl
@[simp] theorem State.appendLine_calls (s : State) (l : Text) : (s.appendLine l).calls = s.calls := rfl
@[simp] theorem State.appendLine_branches (s : State) (l : Text) : (s.appendLine l).branches = s.branches := rfl
@[simp] theorem State.appendLine_phase (s : State) (l : Text) : (s.appendLine l).phase = s.phase := rfl
@[simp] theorem State.appendLine_buf (s : State) (l : Text) : (s.appendLine l).buf = s.buf := rfl
@[simp] theorem State.appendLine_maxBytes (s : State) (l : Text) : (s.appendLine l).maxBytes = s.maxBytes := rfl
@[simp] theorem State.appendLine_host (s : State) (l : Text) : (s.appendLine l).host = s.host := rfl

@[simp] theorem State.addCall_ws (s : State) (d : Text) : (s.addCall d).ws = s.ws := rfl
@[simp] theorem State.addCall_cur (s : State) (d : Text) : (s.addCall d).cur = s.cur := rfl
@[simp] theorem State.addCall_start (s : State) (d : Text) : (s.addCall d).start = s.start := rfl
@[simp] theorem State.addCall_endOff (s : State) (d : Text) : (s.addCall d).endOff = s.endOff := rfl
@[simp] theorem State.addCall_ra (s : State) (d : Text) : (s.addCall d).ra = s.ra := rfl
@[simp] theorem State.addCall_lines (s : State) (d : Text) : (s.addCall d).lines = s.lines := rfl
@[simp] theorem State.addCall_calls (s : State) (d : Text) : (s.addCall d).calls = TextSet.insert d s.calls := rfl
@[simp] theorem State.addCall_branches (s : State) (d : Text) : (s.addCall d).branches = s.branches := rfl
@[simp] theorem State.addCall_phase (s : State) (d : Text) : (s.addCall d).phase = s.phase := rfl
@[simp] theorem State.addCall_buf (s : State) (d : Text) : (s.addCall d).buf = s.buf := rfl
@[simp] theorem State.addCall_maxBytes (s : State) (d : Text) : (s.addCall d).maxBytes = s.maxBytes := rfl
@[simp] theorem State.addCall_host (s : State) (d : Text) : (s.addCall d).host = s.host := rfl

@[simp] theorem State.addBranch_ws (s : State) (d : Text) : (s.addBranch d).ws = s.ws := rfl
@[simp] theorem State.addBranch_cur (s : State) (d : Text) : (s.addBranch d).cur = s.cur := rfl
@[simp] theorem State.addBranch_start (s : State) (d : Text) : (s.addBranch d).start = s.start := rfl
@[simp] theorem State.addBranch_endOff (s : State) (d : Text) : (s.addBranch d).endOff = s.endOff := rfl
@[simp] theorem State.addBranch_ra (s : State) (d : Text) : (s.addBranch d).ra = s.ra := rfl
@[simp] theorem State.addBranch_lines (s : State) (d : Text) : (s.addBranch d).lines = s.lines := rfl
@[simp] theorem State.addBranch_calls (s : State) (d : Text) : (s.addBranch d).calls = s.calls := rfl
@[simp] theorem State.addBranch_branches (s : State) (d : Text) : (s.addBranch d).branches = TextSet.insert d s.branches := rfl
@[simp] theorem State.addBranch_phase (s : State) (d : Text) : (s.addBranch d).phase = s.phase := rfl
@[simp] theorem State.addBranch_buf (s : State) (d : Text) : (s.addBranch d).buf = s.buf := rfl
@[simp] theorem State.addBranch_maxBytes (s : State) (d : Text) : (s.addBranch d).maxBytes = s.maxBytes := rfl
@[simp] theorem State.addBranch_host (s : State) (d : Text) : (s.addBranch d).host = s.host := rfl

@[simp] theorem State.setWidth_ws (s : State) (w : WidthState) : (s.setWidth w).ws = w := rfl
@[simp] theorem State.setWidth_cur (s : State) (w : WidthState) : (s.setWidth w).cur = s.cur := rfl
@[simp] theorem State.setWidth_start (s : State) (w : WidthState) : (s.setWidth w).start = s.start := rfl
@[simp] theorem State.setWidth_endOff (s : State) (w : WidthState) : (s.setWidth w).endOff = s.endOff := rfl
@[simp] theorem State.setWidth_ra (s : State) (w : WidthState) : (s.setWidth w).ra = s.ra := rfl
@[simp] theorem State.setWidth_lines (s : State) (w : WidthState) : (s.setWidth w).lines = s.lines := rfl
@[simp] theorem State.setWidth_calls (s : State) (w : WidthState) : (s.setWidth w).calls = s.calls := rfl
@[simp] theorem State.setWidth_branches (s : State) (w : WidthState) : (s.setWidth w).branches = s.branches := rfl
@[simp] theorem State.setWidth_phase (s : State) (w : WidthState) : (s.setWidth w).phase = s.phase := rfl
@[simp] theorem State.setWidth_buf (s : State) (w : WidthState) : (s.setWidth w).buf = s.buf := rfl
@[simp] theorem State.setWidth_maxBytes (s : State) (w : WidthState) : (s.setWidth w).maxBytes = s.maxBytes := rfl
@[simp] theorem State.setWidth_host (s : State) (w : WidthState) : (s.setWidth w).host = s.host := rfl

@[simp] theorem State.advance_ws (s : State) (n : Nat) : (s.advance n).ws = s.ws := rfl
@[simp] theorem State.advance_cur (s : State) (n : Nat) : (s.advance n).cur = s.cur + n := rfl
@[simp] theorem State.advance_start (s : State) (n : Nat) : (s.advance n).start = s.start := rfl
@[simp] theorem State.advance_endOff (s : State) (n : Nat) : (s.advance n).endOff = s.endOff := rfl
@[simp] theorem State.advance_ra (s : State) (n : Nat) : (s.advance n).ra = s.ra := rfl
@[simp] theorem State.advance_lines (s : State) (n : Nat) : (s.advance n).lines = s.lines := rfl
@[simp] theorem State.advance_calls (s : State) (n : Nat) : (s.advance n).calls = s.calls := rfl
@[simp] theorem State.advance_branches (s : State) (n : Nat) : (s.advance n).branches = s.branches := rfl
@[simp] theorem State.advance_phase (s : State) (n : Nat) : (s.advance n).phase = if s.endOff ≤ s.cur + n then .done else s.phase := rfl
@[simp] theorem State.advance_buf (s : State) (n : Nat) : (s.advance n).buf = s.buf := rfl
@[simp] theorem State.advance_maxBytes (s : State) (n : Nat) : (s.advance n).maxBytes = s.maxBytes := rfl
@[simp] theorem State.advance_host (s : State) (n : Nat) : (s.advance n).host = s.host := rfl

@[simp] theorem State.endPass_ws (s : State) : (s.endPass).ws = s.ws := rfl
@[simp] theorem State.endPass_cur (s : State) : (s.endPass).cur = s.cur := rfl
@[simp] theorem State.endPass_start (s : State) : (s.endPass).start = s.start := rfl
@[simp] theorem State.endPass_endOff (s : State) : (s.endPass).endOff = s.endOff := rfl
@[simp] theorem State.endPass_ra (s : State) : (s.endPass).ra = s.ra := rfl
@[simp] theorem State.endPass_lines (s : State) : (s.endPass).lines = s.lines := rfl
@[simp] theorem State.endPass_calls (s : State) : (s.endPass).calls = s.calls := rfl
@[simp] theorem State.endPass_branches (s : State) : (s.endPass).branches = s.branches := rfl
@[simp] theorem State.endPass_phase (s : State) : (s.endPass).phase = .done := rfl
@[simp] theorem State.endPass_buf (s : State) : (s.endPass).buf = s.buf := rfl
@[simp] theorem State.endPass_maxBytes (s : State) : (s.endPass).maxBytes = s.maxBytes := rfl
@[simp] theorem State.endPass_host (s : State) : (s.endPass).host = s.host := rfl

@[simp] theorem State.appendLine_pc (s : State) (l : Text) : (s.appendLine l).pc = s.pc := rfl
@[simp] theorem State.addCall_pc (s : State) (d : Text) : (s.addCall d).pc = s.pc := rfl
@[simp] theorem State.addBranch_pc (s : State) (d : Text) : (s.addBranch d).pc = s.pc := rfl
@[simp] theorem State.setWidth_pc (s : State) (w : WidthState) : (s.setWidth w).pc = s.pc := rfl
@[simp] theorem State.endPass_pc (s : State) : (s.endPass).pc = s.pc := rfl

/-- The program counter advances with the cursor (R28). -/
@[simp] theorem State.advance_pc (s : State) (n : Nat) : (s.advance n).pc = s.pc + BitVec.ofNat 16 n := by
  simp only [State.pc, State.advance_cur, State.advance_start, State.advance_ra]
  rw [BitVec.ofNat_add]
  simp only [BitVec.sub_eq_add_neg]
  ac_rfl

@[simp] theorem State.launchWith_ws (s : State) (m : Byte → Addr → Nat) (b : Buffer) (ra : Addr) (mb : Option Nat) :
    (s.launchWith m b ra mb).ws = WidthState.launch := rfl
@[simp] theorem State.launchWith_cur (s : State) (m : Byte → Addr → Nat) (b : Buffer) (ra : Addr) (mb : Option Nat) :
    (s.launchWith m b ra mb).cur = m 0 ra := rfl
@[simp] theorem State.launchWith_start (s : State) (m : Byte → Addr → Nat) (b : Buffer) (ra : Addr) (mb : Option Nat) :
    (s.launchWith m b ra mb).start = m 0 ra := rfl
@[simp] theorem State.launchWith_endOff (s : State) (m : Byte → Addr → Nat) (b : Buffer) (ra : Addr) (mb : Option Nat) :
    (s.launchWith m b ra mb).endOff = min b.len (m 0 ra + mb.getD defaultMaxBytes) := rfl
@[simp] theorem State.launchWith_ra (s : State) (m : Byte → Addr → Nat) (b : Buffer) (ra : Addr) (mb : Option Nat) :
    (s.launchWith m b ra mb).ra = ra := rfl
@[simp] theorem State.launchWith_lines (s : State) (m : Byte → Addr → Nat) (b : Buffer) (ra : Addr) (mb : Option Nat) :
    (s.launchWith m b ra mb).lines = [] := rfl
@[simp] theorem State.launchWith_calls (s : State) (m : Byte → Addr → Nat) (b : Buffer) (ra : Addr) (mb : Option Nat) :
    (s.launchWith m b ra mb).calls = [] := rfl
@[simp] theorem State.launchWith_branches (s : State) (m : Byte → Addr → Nat) (b : Buffer) (ra : Addr) (mb : Option Nat) :
    (s.launchWith m b ra mb).branches = [] := rfl
@[simp] theorem State.launchWith_phase (s : State) (m : Byte → Addr → Nat) (b : Buffer) (ra : Addr) (mb : Option Nat) :
    (s.launchWith m b ra mb).phase = if m 0 ra < min b.len (m 0 ra + mb.getD defaultMaxBytes) then .run else .done := rfl
@[simp] theorem State.launchWith_buf (s : State) (m : Byte → Addr → Nat) (b : Buffer) (ra : Addr) (mb : Option Nat) :
    (s.launchWith m b ra mb).buf = b := rfl
@[simp] theorem State.launchWith_maxBytes (s : State) (m : Byte → Addr → Nat) (b : Buffer) (ra : Addr) (mb : Option Nat) :
    (s.launchWith m b ra mb).maxBytes = mb.getD defaultMaxBytes := rfl
@[simp] theorem State.launchWith_host (s : State) (m : Byte → Addr → Nat) (b : Buffer) (ra : Addr) (mb : Option Nat) :
    (s.launchWith m b ra mb).host = s.host := rfl

/-- The first step of a pass has the start address as its program counter (R212). -/
@[simp] theorem State.launchWith_pc (s : State) (m : Byte → Addr → Nat) (b : Buffer) (ra : Addr) (mb : Option Nat) :
    (s.launchWith m b ra mb).pc = ra := by
  simp [State.pc]

end Sys2Proof.Machine
end

