-- ==== Sys2Proof/Laws/Text.lean ====
section
/-! SUPPORT. Laws of texts, of the lexicographic order and of sets of strings. -/

namespace Sys2Proof.Machine

open Sys2Proof

/-! ### Hexadecimal digits -/

@[simp] theorem hexN_length (n v : Nat) : (hexN n v).length = n := by
  induction n generalizing v with
  | zero => rfl
  | succ n ih => simp [hexN, ih]

/-- The characters a hexadecimal digit can be. -/
def hexDigits : List Char := ['0', '1', '2', '3', '4', '5', '6', '7', '8', '9', 'A', 'B', 'C', 'D', 'E', 'F']

theorem hexDigit_mem_all : ∀ d : Fin 16, hexDigit d.val ∈ hexDigits := by decide

theorem hexDigit_mem {d : Nat} (h : d < 16) : hexDigit d ∈ hexDigits := hexDigit_mem_all ⟨d, h⟩

theorem hexN_mem (n v : Nat) : ∀ c ∈ hexN n v, c ∈ hexDigits := by
  induction n generalizing v with
  | zero => simp [hexN]
  | succ n ih =>
    intro c hc
    simp only [hexN, List.mem_append, List.mem_singleton] at hc
    rcases hc with hc | rfl
    · exact ih _ c hc
    · exact hexDigit_mem (Nat.mod_lt _ (by omega))

/-- Only the low `4 * n` bits matter. -/
theorem hexN_mod (n v : Nat) : hexN n (v % 16 ^ n) = hexN n v := by
  induction n generalizing v with
  | zero => rfl
  | succ n ih =>
    have h1 : v % 16 ^ (n + 1) / 16 = v / 16 % 16 ^ n := by
      rw [Nat.pow_succ, Nat.mul_comm, Nat.mod_mul_right_div_self]
    have h2 : v % 16 ^ (n + 1) % 16 = v % 16 := Nat.mod_mod_of_dvd v (Dvd.intro_left (16 ^ n) rfl)
    simp only [hexN, h1, h2, ih]

theorem hexDigits_upper (c : Char) (h : c ∈ hexDigits) : upperChar c = c := by
  simp only [hexDigits, List.mem_cons, List.not_mem_nil, or_false] at h
  rcases h with rfl | rfl | rfl | rfl | rfl | rfl | rfl | rfl | rfl | rfl | rfl | rfl | rfl | rfl | rfl | rfl <;> decide

theorem hexDigits_noSpace (c : Char) (h : c ∈ hexDigits) : (c == ' ') = false := by
  simp only [hexDigits, List.mem_cons, List.not_mem_nil, or_false] at h
  rcases h with rfl | rfl | rfl | rfl | rfl | rfl | rfl | rfl | rfl | rfl | rfl | rfl | rfl | rfl | rfl | rfl <;> decide

theorem upper_hexN (n v : Nat) : upper (hexN n v) = hexN n v := by
  simp only [upper]
  conv_rhs => rw [← List.map_id (hexN n v)]
  exact List.map_congr_left fun c hc => hexDigits_upper c (hexN_mem n v c hc)

theorem upper_append (a b : Text) : upper (a ++ b) = upper a ++ upper b := List.map_append

/-! ### Trimming -/

theorem trimLeft_of_head {c : Char} {t : Text} (h : (c == ' ') = false) : trimLeft (c :: t) = c :: t := by
  simp [trimLeft, h]

/-- A text that neither begins nor ends with a space is its own trim. -/
theorem trim_of_ends {c d : Char} {t : Text} (hc : (c == ' ') = false) (hd : (d == ' ') = false) :
    trim (c :: t ++ [d]) = c :: t ++ [d] := by
  have h1 : trimLeft (c :: t ++ [d]) = c :: t ++ [d] := trimLeft_of_head hc
  have h2 : trimLeft (c :: t ++ [d]).reverse = (c :: t ++ [d]).reverse := by
    rw [List.reverse_append]
    exact trimLeft_of_head hd
  rw [trim, h1, h2, List.reverse_reverse]

/-- A text whose first and last characters are no spaces is its own trim. -/
theorem trim_eq_self {t : Text} (h0 : t ≠ []) (h1 : ∀ c, t.head? = some c → (c == ' ') = false)
    (h2 : ∀ c, t.getLast? = some c → (c == ' ') = false) : trim t = t := by
  obtain ⟨c, t', rfl⟩ := List.exists_cons_of_ne_nil h0
  have hl : trimLeft (c :: t') = c :: t' := trimLeft_of_head (h1 c rfl)
  have hr : (c :: t').reverse ≠ [] := by simp
  obtain ⟨d, u, hu⟩ := List.exists_cons_of_ne_nil hr
  have hd : (c :: t').getLast? = some d := by rw [List.getLast?_eq_head?_reverse, hu]; rfl
  rw [trim, hl, hu, trimLeft_of_head (h2 d hd), ← hu, List.reverse_reverse]

/-- A trailing space is trimmed. -/
theorem trim_trailing {t : Text} (h0 : t ≠ []) (h1 : ∀ c, t.head? = some c → (c == ' ') = false)
    (h2 : ∀ c, t.getLast? = some c → (c == ' ') = false) : trim (t ++ [' ']) = t := by
  have h := trim_eq_self h0 h1 h2
  obtain ⟨c, t', rfl⟩ := List.exists_cons_of_ne_nil h0
  have hl : trimLeft (c :: t' ++ [' ']) = c :: t' ++ [' '] := trimLeft_of_head (h1 c rfl)
  have hl' : trimLeft (c :: t') = c :: t' := trimLeft_of_head (h1 c rfl)
  rw [trim, hl'] at h
  rw [trim, hl, List.reverse_append]
  simpa [trimLeft] using h

/-! ### The order and the sets -/

theorem textLt_irrefl (a : Text) : textLt a a = false := by
  induction a with
  | nil => rfl
  | cons c t ih => simp [textLt, ih]

theorem textLt_trans {a b c : Text} (h1 : textLt a b = true) (h2 : textLt b c = true) : textLt a c = true := by
  induction a generalizing b c with
  | nil =>
    cases c with
    | nil => cases b <;> simp [textLt] at h2
    | cons _ _ => rfl
  | cons x xs ih =>
    cases b with
    | nil => simp [textLt] at h1
    | cons y ys =>
      cases c with
      | nil => simp [textLt] at h2
      | cons z zs =>
        simp only [textLt] at h1 h2 ⊢
        split at h1
        · split at h2
          · rw [if_pos (by omega)]
          · split at h2
            · subst_vars
              rw [if_pos (by assumption)]
            · cases h2
        · split at h1
          · subst_vars
            split at h2
            · rw [if_pos (by assumption)]
            · split at h2
              · subst_vars
                rw [if_neg (by assumption), if_pos rfl]
                exact ih h1 h2
              · cases h2
          · cases h1

theorem textLt_total {a b : Text} (h1 : textLt a b = false) (h2 : a ≠ b) : textLt b a = true := by
  induction a generalizing b with
  | nil =>
    cases b with
    | nil => exact absurd rfl h2
    | cons _ _ => simp [textLt] at h1
  | cons x xs ih =>
    cases b with
    | nil => rfl
    | cons y ys =>
      simp only [textLt] at h1 ⊢
      split at h1
      · cases h1
      · rename_i hlt
        split at h1
        · rename_i hxy
          subst hxy
          rw [if_neg hlt, if_pos rfl]
          exact ih h1 (fun h => h2 (by rw [h]))
        · rename_i hxy
          have hne : x.toNat ≠ y.toNat := fun h => hxy (Char.toNat_inj.1 h)
          rw [if_pos (by omega)]

theorem textLt_asymm {a b : Text} (h : textLt a b = true) : textLt b a = false := by
  cases hba : textLt b a with
  | false => rfl
  | true =>
    have := textLt_trans h hba
    rw [textLt_irrefl] at this
    cases this

/-- Membership after adding. -/
theorem TextSet.mem_insert {x d : Text} {t : TextSet} : x ∈ TextSet.insert d t ↔ x = d ∨ x ∈ t := by
  induction t with
  | nil => simp [TextSet.insert]
  | cons y ys ih =>
    simp only [TextSet.insert]
    split
    · simp
    · split
      · subst_vars
        simp
      · simp only [List.mem_cons, ih]
        tauto

/-- Adding keeps a set strictly ascending. -/
theorem TextSet.insert_pairwise {d : Text} {t : TextSet} (h : t.Pairwise fun a b => textLt a b = true) :
    (TextSet.insert d t).Pairwise fun a b => textLt a b = true := by
  induction t with
  | nil => simp [TextSet.insert]
  | cons y ys ih =>
    rw [List.pairwise_cons] at h
    simp only [TextSet.insert]
    split
    · rename_i hlt
      refine List.pairwise_cons.2 ⟨fun z hz => ?_, List.pairwise_cons.2 h⟩
      rcases List.mem_cons.1 hz with rfl | hz
      · exact hlt
      · exact textLt_trans hlt (h.1 z hz)
    · rename_i hlt
      split
      · exact List.pairwise_cons.2 h
      · rename_i hne
        refine List.pairwise_cons.2 ⟨fun z hz => ?_, ih h.2⟩
        rcases TextSet.mem_insert.1 hz with rfl | hz
        · exact textLt_total (by simpa using hlt) hne
        · exact h.1 z hz

/-- A string below every member comes first. -/
theorem TextSet.insert_of_forall_lt {d : Text} {t : TextSet} (h : ∀ x ∈ t, textLt d x = true) :
    TextSet.insert d t = d :: t := by
  cases t with
  | nil => rfl
  | cons y ys => simp [TextSet.insert, h y (by simp)]

/-- Sorting a set in canonical form changes nothing. -/
theorem sortedSet_eq_self {t : TextSet} (h : t.Pairwise fun a b => textLt a b = true) : sortedSet t = t := by
  induction t with
  | nil => rfl
  | cons y ys ih =>
    rw [List.pairwise_cons] at h
    rw [sortedSet, List.foldr_cons, ← sortedSet, ih h.2]
    exact TextSet.insert_of_forall_lt h.1

end Sys2Proof.Machine
end

