-- ==== Sys2Proof/Laws/Ops.lean ====
section
/-! SUPPORT. For each shared operation, one lemma that says everything it can do: the reads and the fetch, and the step of
each class as one explicit update of the state. -/

namespace Sys2Proof.Machine

open Sys2Proof

/-! ### Reads and the fetch -/

theorem Buffer.read?_eq_some {b : Buffer} {k : Nat} {v : Byte} : b.read? k = some v ↔ k < b.len ∧ b.cells.read k = v := by
  simp only [Buffer.read?]
  split <;> simp_all

/-- A read succeeds exactly inside the window and the buffer (R37). -/
theorem State.readByte_eq_ok {s : State} {k : Nat} {b : Byte} :
    s.readByte k = .ok b ↔ (s.start ≤ k ∧ k < s.endOff) ∧ s.buf.read? k = some b := by
  simp only [State.readByte]
  split
  · cases h : s.buf.read? k <;> simp_all
  · simp_all

/-- What a capture answers: the bytes at `n` consecutive offsets, each readable. -/
theorem State.capture_eq_ok {s : State} {k n : Nat} {bs : List Byte} :
    s.capture k n = .ok bs ↔ bs.length = n ∧ ∀ j b, bs[j]? = some b → s.readByte (k + j) = .ok b := by
  induction n generalizing k bs with
  | zero =>
    simp only [State.capture, Except.ok.injEq]
    constructor
    · rintro rfl
      simp
    · rintro ⟨h, -⟩
      exact (List.length_eq_zero_iff.1 h).symm
  | succ n ih =>
    simp only [State.capture]
    constructor
    · intro h
      split at h
      · cases h
      · rename_i b hb
        split at h
        · cases h
        · rename_i bs' hbs
          cases h
          obtain ⟨hlen, hread⟩ := ih.1 hbs
          refine ⟨by simp [hlen], fun j c hj => ?_⟩
          cases j with
          | zero => simp only [List.getElem?_cons_zero, Option.some.injEq] at hj; subst hj; exact hb
          | succ j =>
            rw [List.getElem?_cons_succ] at hj
            rw [show k + (j + 1) = k + 1 + j by omega]
            exact hread j c hj
    · rintro ⟨hlen, hread⟩
      cases bs with
      | nil => simp at hlen
      | cons b bs =>
        have hb : s.readByte k = .ok b := hread 0 b rfl
        have hbs : s.capture (k + 1) n = .ok bs := ih.2 ⟨by simpa using hlen, fun j c hj => by
          rw [show k + 1 + j = k + (j + 1) by omega]
          exact hread (j + 1) c (by simpa using hj)⟩
        rw [hb, hbs]

/-- What a fetch answers: the opcode at the cursor and the clipped operand bytes after it (R104, R106). -/
theorem State.fetch_eq_ok {s : State} {rom : Rom} {bs : List Byte} :
    s.fetch rom = .ok bs ↔ ∃ op ops, bs = op :: ops ∧ s.readByte s.cur = .ok op ∧
      s.capture (s.cur + 1) (s.navail (lengthOf rom s.ws op)) = .ok ops := by
  simp only [State.fetch]
  constructor
  · intro h
    split at h
    · cases h
    · rename_i op hop
      split at h
      · cases h
      · rename_i ops hops
        cases h
        exact ⟨op, ops, rfl, hop, hops⟩
  · rintro ⟨op, ops, rfl, hop, hops⟩
    rw [hop]
    simp only [hops]

/-! ### Sizes -/

theorem instrSize_pos (mode : Mode) (ws : WidthState) : 1 ≤ instrSize mode ws := by
  cases mode <;> simp only [instrSize] <;> (try split) <;> omega

theorem instrSize_le (mode : Mode) (ws : WidthState) : instrSize mode ws ≤ 4 := by
  cases mode <;> simp only [instrSize] <;> (try split) <;> omega

theorem lengthOf_pos (rom : Rom) (ws : WidthState) (op : Byte) : 1 ≤ lengthOf rom ws op := by
  simp only [lengthOf]
  split
  · omega
  · exact instrSize_pos _ _

theorem lengthOf_le (rom : Rom) (ws : WidthState) (op : Byte) : lengthOf rom ws op ≤ 4 := by
  simp only [lengthOf]
  split
  · omega
  · exact instrSize_le _ _

/-! ### The step of each class -/

theorem plainStep_eq (mn : Text) (mode : Mode) (ops : List Byte) (s : State) :
    plainStep mn mode ops s = { s with
      lines := s.lines ++ [knownLine s.pc mn (fmt mode ops s.pc)]
      cur := s.cur + instrSize mode s.ws
      phase := if s.endOff ≤ s.cur + instrSize mode s.ws then .done else s.phase } := rfl

theorem callStep_eq (mn : Text) (mode : Mode) (ops : List Byte) (s : State) :
    callStep mn mode ops s = { s with
      lines := s.lines ++ [knownLine s.pc mn (fmt mode ops s.pc)]
      calls := TextSet.insert (descriptor mn (fmt mode ops s.pc)) s.calls
      cur := s.cur + instrSize mode s.ws
      phase := if s.endOff ≤ s.cur + instrSize mode s.ws then .done else s.phase } := rfl

theorem branchStep_eq (mn : Text) (ops : List Byte) (s : State) :
    branchStep mn ops s = { s with
      lines := s.lines ++ [knownLine s.pc mn (fmt .rel ops s.pc)]
      branches := TextSet.insert (descriptor mn (fmt .rel ops s.pc)) s.branches
      cur := s.cur + 2
      phase := if s.endOff ≤ s.cur + 2 then .done else s.phase } := rfl

theorem returnStep_eq (mn : Text) (s : State) :
    returnStep mn s = { s with
      lines := s.lines ++ [knownLine s.pc mn []]
      cur := s.cur + 1
      phase := .done } := rfl

theorem statusStep_eq (f : Byte → WidthState → WidthState) (mn : Text) (ops : List Byte) (s : State) :
    statusStep f mn ops s = { s with
      lines := s.lines ++ [knownLine s.pc mn (fmt .imm8 ops s.pc)]
      ws := widthUpdate f ops s.ws
      cur := s.cur + 2
      phase := if s.endOff ≤ s.cur + 2 then .done else s.phase } := rfl

theorem rawStep_eq (op : Byte) (s : State) :
    rawStep op s = { s with
      lines := s.lines ++ [rawLine s.pc op]
      cur := s.cur + 1
      phase := if s.endOff ≤ s.cur + 1 then .done else s.phase } := rfl

end Sys2Proof.Machine
end

