-- ==== Sys2Proof/Laws/PerInstr.lean ====
section
/-! SUPPORT. What holds of every instruction as syntax, one lemma per constructor. -/

namespace Sys2Proof.Laws

open Sys2Proof

/-- The entry of the Opcode Table an instruction stands for; none for a raw byte. -/
def entryOf : Instr → Option Entry
  | .bpl _ => some ⟨Machine.mnBpl, .rel⟩
  | .bmi _ => some ⟨Machine.mnBmi, .rel⟩
  | .bvc _ => some ⟨Machine.mnBvc, .rel⟩
  | .bvs _ => some ⟨Machine.mnBvs, .rel⟩
  | .bra _ => some ⟨Machine.mnBra, .rel⟩
  | .bcc _ => some ⟨Machine.mnBcc, .rel⟩
  | .bcs _ => some ⟨Machine.mnBcs, .rel⟩
  | .bne _ => some ⟨Machine.mnBne, .rel⟩
  | .beq _ => some ⟨Machine.mnBeq, .rel⟩
  | .jsr _ => some ⟨Machine.mnJsr, .abs⟩
  | .jsl _ => some ⟨Machine.mnJsl, .long⟩
  | .jmp _ => some ⟨Machine.mnJmp, .abs⟩
  | .jml _ => some ⟨Machine.mnJml, .long⟩
  | .sep _ => some ⟨Machine.mnSep, .imm8⟩
  | .rep _ => some ⟨Machine.mnRep, .imm8⟩
  | .ldaImm _ => some ⟨Machine.mnLda, .immM⟩
  | .andImm _ => some ⟨Machine.mnAnd, .immM⟩
  | .cmpImm _ => some ⟨Machine.mnCmp, .immM⟩
  | .ldxImm _ => some ⟨Machine.mnLdx, .immX⟩
  | .ldyImm _ => some ⟨Machine.mnLdy, .immX⟩
  | .staAbs _ => some ⟨Machine.mnSta, .abs⟩
  | .ldaAbs _ => some ⟨Machine.mnLda, .abs⟩
  | .ldaAbsY _ => some ⟨Machine.mnLda, .absY⟩
  | .staDpX _ => some ⟨Machine.mnSta, .dpX⟩
  | .staLong _ => some ⟨Machine.mnSta, .long⟩
  | .rts => some ⟨Machine.mnRts, .imp⟩
  | .rtl => some ⟨Machine.mnRtl, .imp⟩
  | .rti => some ⟨Machine.mnRti, .imp⟩
  | .sei => some ⟨Machine.mnSei, .imp⟩
  | .clc => some ⟨Machine.mnClc, .imp⟩
  | .xce => some ⟨Machine.mnXce, .imp⟩
  | .nop => some ⟨Machine.mnNop, .imp⟩
  | .byte _ => none

/-- The Opcode Table holds, at the opcode of a well-formed instruction, the entry the instruction stands for (R68, R69). -/
def OpcodeEntry.Statement (i : Instr) : Prop :=
  ∀ ws, i.wf ws = true → Machine.refRom i.opcode = entryOf i

theorem OpcodeEntry.bpl (ops : List Byte) : OpcodeEntry.Statement (.bpl ops) := fun _ _ => rfl
theorem OpcodeEntry.bmi (ops : List Byte) : OpcodeEntry.Statement (.bmi ops) := fun _ _ => rfl
theorem OpcodeEntry.bvc (ops : List Byte) : OpcodeEntry.Statement (.bvc ops) := fun _ _ => rfl
theorem OpcodeEntry.bvs (ops : List Byte) : OpcodeEntry.Statement (.bvs ops) := fun _ _ => rfl
theorem OpcodeEntry.bra (ops : List Byte) : OpcodeEntry.Statement (.bra ops) := fun _ _ => rfl
theorem OpcodeEntry.bcc (ops : List Byte) : OpcodeEntry.Statement (.bcc ops) := fun _ _ => rfl
theorem OpcodeEntry.bcs (ops : List Byte) : OpcodeEntry.Statement (.bcs ops) := fun _ _ => rfl
theorem OpcodeEntry.bne (ops : List Byte) : OpcodeEntry.Statement (.bne ops) := fun _ _ => rfl
theorem OpcodeEntry.beq (ops : List Byte) : OpcodeEntry.Statement (.beq ops) := fun _ _ => rfl
theorem OpcodeEntry.jsr (ops : List Byte) : OpcodeEntry.Statement (.jsr ops) := fun _ _ => rfl
theorem OpcodeEntry.jsl (ops : List Byte) : OpcodeEntry.Statement (.jsl ops) := fun _ _ => rfl
theorem OpcodeEntry.jmp (ops : List Byte) : OpcodeEntry.Statement (.jmp ops) := fun _ _ => rfl
theorem OpcodeEntry.jml (ops : List Byte) : OpcodeEntry.Statement (.jml ops) := fun _ _ => rfl
theorem OpcodeEntry.sep (ops : List Byte) : OpcodeEntry.Statement (.sep ops) := fun _ _ => rfl
theorem OpcodeEntry.rep (ops : List Byte) : OpcodeEntry.Statement (.rep ops) := fun _ _ => rfl
theorem OpcodeEntry.ldaImm (ops : List Byte) : OpcodeEntry.Statement (.ldaImm ops) := fun _ _ => rfl
theorem OpcodeEntry.andImm (ops : List Byte) : OpcodeEntry.Statement (.andImm ops) := fun _ _ => rfl
theorem OpcodeEntry.cmpImm (ops : List Byte) : OpcodeEntry.Statement (.cmpImm ops) := fun _ _ => rfl
theorem OpcodeEntry.ldxImm (ops : List Byte) : OpcodeEntry.Statement (.ldxImm ops) := fun _ _ => rfl
theorem OpcodeEntry.ldyImm (ops : List Byte) : OpcodeEntry.Statement (.ldyImm ops) := fun _ _ => rfl
theorem OpcodeEntry.staAbs (ops : List Byte) : OpcodeEntry.Statement (.staAbs ops) := fun _ _ => rfl
theorem OpcodeEntry.ldaAbs (ops : List Byte) : OpcodeEntry.Statement (.ldaAbs ops) := fun _ _ => rfl
theorem OpcodeEntry.ldaAbsY (ops : List Byte) : OpcodeEntry.Statement (.ldaAbsY ops) := fun _ _ => rfl
theorem OpcodeEntry.staDpX (ops : List Byte) : OpcodeEntry.Statement (.staDpX ops) := fun _ _ => rfl
theorem OpcodeEntry.staLong (ops : List Byte) : OpcodeEntry.Statement (.staLong ops) := fun _ _ => rfl
theorem OpcodeEntry.rts : OpcodeEntry.Statement .rts := fun _ _ => rfl
theorem OpcodeEntry.rtl : OpcodeEntry.Statement .rtl := fun _ _ => rfl
theorem OpcodeEntry.rti : OpcodeEntry.Statement .rti := fun _ _ => rfl
theorem OpcodeEntry.sei : OpcodeEntry.Statement .sei := fun _ _ => rfl
theorem OpcodeEntry.clc : OpcodeEntry.Statement .clc := fun _ _ => rfl
theorem OpcodeEntry.xce : OpcodeEntry.Statement .xce := fun _ _ => rfl
theorem OpcodeEntry.nop : OpcodeEntry.Statement .nop := fun _ _ => rfl
theorem OpcodeEntry.byte (op : Byte) : OpcodeEntry.Statement (.byte op) := fun _ h => Option.isNone_iff_eq_none.1 h

/-- A well-formed instruction takes 1 to 4 bytes, and no more than its size (R57, R64). -/
def EncodedLength.Statement (i : Instr) : Prop :=
  ∀ ws, i.wf ws = true → 1 ≤ (encode i).length ∧ (encode i).length ≤ Machine.lengthOf Machine.refRom ws i.opcode

theorem EncodedLength.bpl (ops : List Byte) : EncodedLength.Statement (.bpl ops) :=
  fun _ h => ⟨Nat.succ_pos _, of_decide_eq_true h⟩
theorem EncodedLength.bmi (ops : List Byte) : EncodedLength.Statement (.bmi ops) :=
  fun _ h => ⟨Nat.succ_pos _, of_decide_eq_true h⟩
theorem EncodedLength.bvc (ops : List Byte) : EncodedLength.Statement (.bvc ops) :=
  fun _ h => ⟨Nat.succ_pos _, of_decide_eq_true h⟩
theorem EncodedLength.bvs (ops : List Byte) : EncodedLength.Statement (.bvs ops) :=
  fun _ h => ⟨Nat.succ_pos _, of_decide_eq_true h⟩
theorem EncodedLength.bra (ops : List Byte) : EncodedLength.Statement (.bra ops) :=
  fun _ h => ⟨Nat.succ_pos _, of_decide_eq_true h⟩
theorem EncodedLength.bcc (ops : List Byte) : EncodedLength.Statement (.bcc ops) :=
  fun _ h => ⟨Nat.succ_pos _, of_decide_eq_true h⟩
theorem EncodedLength.bcs (ops : List Byte) : EncodedLength.Statement (.bcs ops) :=
  fun _ h => ⟨Nat.succ_pos _, of_decide_eq_true h⟩
theorem EncodedLength.bne (ops : List Byte) : EncodedLength.Statement (.bne ops) :=
  fun _ h => ⟨Nat.succ_pos _, of_decide_eq_true h⟩
theorem EncodedLength.beq (ops : List Byte) : EncodedLength.Statement (.beq ops) :=
  fun _ h => ⟨Nat.succ_pos _, of_decide_eq_true h⟩
theorem EncodedLength.jsr (ops : List Byte) : EncodedLength.Statement (.jsr ops) :=
  fun _ h => ⟨Nat.succ_pos _, of_decide_eq_true h⟩
theorem EncodedLength.jsl (ops : List Byte) : EncodedLength.Statement (.jsl ops) :=
  fun _ h => ⟨Nat.succ_pos _, of_decide_eq_true h⟩
theorem EncodedLength.jmp (ops : List Byte) : EncodedLength.Statement (.jmp ops) :=
  fun _ h => ⟨Nat.succ_pos _, of_decide_eq_true h⟩
theorem EncodedLength.jml (ops : List Byte) : EncodedLength.Statement (.jml ops) :=
  fun _ h => ⟨Nat.succ_pos _, of_decide_eq_true h⟩
theorem EncodedLength.sep (ops : List Byte) : EncodedLength.Statement (.sep ops) :=
  fun _ h => ⟨Nat.succ_pos _, of_decide_eq_true h⟩
theorem EncodedLength.rep (ops : List Byte) : EncodedLength.Statement (.rep ops) :=
  fun _ h => ⟨Nat.succ_pos _, of_decide_eq_true h⟩
theorem EncodedLength.ldaImm (ops : List Byte) : EncodedLength.Statement (.ldaImm ops) :=
  fun _ h => ⟨Nat.succ_pos _, of_decide_eq_true h⟩
theorem EncodedLength.andImm (ops : List Byte) : EncodedLength.Statement (.andImm ops) :=
  fun _ h => ⟨Nat.succ_pos _, of_decide_eq_true h⟩
theorem EncodedLength.cmpImm (ops : List Byte) : EncodedLength.Statement (.cmpImm ops) :=
  fun _ h => ⟨Nat.succ_pos _, of_decide_eq_true h⟩
theorem EncodedLength.ldxImm (ops : List Byte) : EncodedLength.Statement (.ldxImm ops) :=
  fun _ h => ⟨Nat.succ_pos _, of_decide_eq_true h⟩
theorem EncodedLength.ldyImm (ops : List Byte) : EncodedLength.Statement (.ldyImm ops) :=
  fun _ h => ⟨Nat.succ_pos _, of_decide_eq_true h⟩
theorem EncodedLength.staAbs (ops : List Byte) : EncodedLength.Statement (.staAbs ops) :=
  fun _ h => ⟨Nat.succ_pos _, of_decide_eq_true h⟩
theorem EncodedLength.ldaAbs (ops : List Byte) : EncodedLength.Statement (.ldaAbs ops) :=
  fun _ h => ⟨Nat.succ_pos _, of_decide_eq_true h⟩
theorem EncodedLength.ldaAbsY (ops : List Byte) : EncodedLength.Statement (.ldaAbsY ops) :=
  fun _ h => ⟨Nat.succ_pos _, of_decide_eq_true h⟩
theorem EncodedLength.staDpX (ops : List Byte) : EncodedLength.Statement (.staDpX ops) :=
  fun _ h => ⟨Nat.succ_pos _, of_decide_eq_true h⟩
theorem EncodedLength.staLong (ops : List Byte) : EncodedLength.Statement (.staLong ops) :=
  fun _ h => ⟨Nat.succ_pos _, of_decide_eq_true h⟩
theorem EncodedLength.rts : EncodedLength.Statement .rts := fun _ _ => ⟨Nat.le_refl _, Nat.le_refl _⟩
theorem EncodedLength.rtl : EncodedLength.Statement .rtl := fun _ _ => ⟨Nat.le_refl _, Nat.le_refl _⟩
theorem EncodedLength.rti : EncodedLength.Statement .rti := fun _ _ => ⟨Nat.le_refl _, Nat.le_refl _⟩
theorem EncodedLength.sei : EncodedLength.Statement .sei := fun _ _ => ⟨Nat.le_refl _, Nat.le_refl _⟩
theorem EncodedLength.clc : EncodedLength.Statement .clc := fun _ _ => ⟨Nat.le_refl _, Nat.le_refl _⟩
theorem EncodedLength.xce : EncodedLength.Statement .xce := fun _ _ => ⟨Nat.le_refl _, Nat.le_refl _⟩
theorem EncodedLength.nop : EncodedLength.Statement .nop := fun _ _ => ⟨Nat.le_refl _, Nat.le_refl _⟩
theorem EncodedLength.byte (op : Byte) : EncodedLength.Statement (.byte op) := fun ws h => by
  have hn : Machine.refRom op = none := Option.isNone_iff_eq_none.1 h
  have hl : Machine.lengthOf Machine.refRom ws op = 1 := by simp only [Machine.lengthOf, hn]
  exact ⟨Nat.le_refl _, Nat.le_of_eq hl.symm⟩

end Sys2Proof.Laws
end

