-- ==== Sys2Proof/Laws/Step.lean ====
section
/-! SUPPORT. What the step can do, said once: outside a pass, at an opcode, and whatever it answers during a pass; the
dispatch over instructions as the step of a table entry; the text of a line. -/

namespace Sys2Proof.Machine

open Sys2Proof

/-! ### Which tables are admitted -/

/-- The check of RC5 says what RC5 says. -/
theorem rc5Holds_iff {p : Params} : rc5Holds p = true ↔ p.RC5 := by
  simp only [rc5Holds, List.all_eq_true, List.mem_range, Option.all_eq_true, entryAllowed, Bool.and_eq_true,
    Bool.or_eq_true, decide_eq_true_eq, Params.RC5]
  constructor
  · intro h op e he
    have := h op.toNat op.isLt e (by rwa [BitVec.ofNat_toNat, BitVec.setWidth_eq])
    exact ⟨fun hc => this.1.resolve_left (not_not_intro hc), fun hs => this.2.resolve_left (not_not_intro hs)⟩
  · intro h op _ e he
    exact ⟨Decidable.not_or_of_imp (h _ e he).1, Decidable.not_or_of_imp (h _ e he).2⟩

theorem refParams_rc5 : refParams.RC5 := rc5Holds_iff.1 (by decide +kernel)

theorem stepWith_of_rc5 {p : Params} (h : p.RC5) (s : State) : stepWith p s = stepAdmitted p s :=
  if_pos (rc5Holds_iff.2 h)

/-- A step that answers a next state is one with an admitted table. -/
theorem stepWith_next {p : Params} {s t : State} (h : stepWith p s = .next t) : p.RC5 ∧ stepAdmitted p s = .next t := by
  by_cases h5 : p.RC5
  · exact ⟨h5, by rwa [stepWith_of_rc5 h5] at h⟩
  · rw [stepWith, if_neg (fun hc => h5 (rc5Holds_iff.1 hc))] at h
    cases h

/-! ### Outside a pass -/

theorem stepAdmitted_launcher {p : Params} {s : State} (h : s.phase ≠ .run) :
    stepAdmitted p s = launcherStep p.mapper s := by
  unfold stepAdmitted
  cases hp : s.phase <;> simp_all

theorem step_launcher {s : State} (h : s.phase ≠ .run) : step s = launcherStep linearOffset s := by
  unfold step
  cases hp : s.phase <;> simp_all

theorem launcherStep_launch {m : Byte → Addr → Nat} {s : State} {b : Buffer} {ra : Addr} {mb : Option Nat}
    {rest : List HostAction} (h : s.host = .launch b ra mb :: rest) :
    launcherStep m s = .next (({ s with host := rest } : State).launchWith m b ra mb) := by
  unfold launcherStep
  rw [h]

/-! ### During a pass -/

theorem stepAdmitted_run {p : Params} {s : State} (h : s.phase = .run) (hs : s.BufferStable) :
    stepAdmitted p s = sequencerStep p s := by
  unfold stepAdmitted
  simp only [h]
  split
  · rename_i h1
    exact absurd h1 (hs _ _)
  · rfl

theorem step_run {s : State} (h : s.phase = .run) (hs : s.BufferStable) : step s = decodeStep s := by
  unfold step
  simp only [h]
  split
  · rename_i h1
    exact absurd h1 (hs _ _)
  · rfl

theorem coreWith_run_next {p : Params} {s t : State} (h : stepWith p s = .next t) (k : Nat) :
    (coreWith p).run (k + 1) s = (coreWith p).run k t := by
  simp only [Host.Core.run, coreWith, h]

theorem decodeStep_of {s : State} {i : Instr} {bytes rest : List Byte} (h1 : s.fetch refRom = .ok bytes)
    (h2 : decode s.ws bytes = .ok (i, rest)) : decodeStep s = exec i s := by
  unfold decodeStep
  rw [h1]
  simp only [h2]

theorem readByte_at {s : State} {op : Byte} (h : s.AtOpcode op) : s.readByte s.cur = .ok op :=
  State.readByte_eq_ok.2 ⟨h.inside, h.opcode⟩

theorem capture_at {p : Params} {s : State} {op : Byte} {e : Entry} {ops : List Byte} (h : s.AtEntry p op e ops) :
    s.capture (s.cur + 1) (s.navail (instrSize e.mode s.ws)) = .ok ops := by
  rw [State.capture_eq_ok]
  refine ⟨h.captured, fun j b hj => State.readByte_eq_ok.2 ⟨?_, h.bytes j b hj⟩⟩
  have hi := h.inside
  have hl := h.captured
  have : j < ops.length := (List.getElem?_eq_some_iff.1 hj).1
  omega

theorem sequencerStep_known {p : Params} {s : State} {op : Byte} {e : Entry} {ops : List Byte} (h : s.AtEntry p op e ops) :
    sequencerStep p s = .next (knownStep p.classes e.mnemonic e.mode ops s) := by
  simp only [sequencerStep, readByte_at h.toAtOpcode, h.entry, capture_at h]

theorem sequencerStep_unknown {p : Params} {s : State} {op : Byte} (h : s.readByte s.cur = .ok op) (hn : p.rom op = none) :
    sequencerStep p s = .next (s.after (rawLine s.pc op) 1) := by
  simp only [sequencerStep, h, hn, State.after]
  congr 1
  by_cases hc : s.endOff ≤ s.cur + 1 <;> simp [hc, State.appendLine, State.endPass]

/-- The step of a known opcode as one explicit update of the state. -/
theorem knownStep_eq (c : ClassSets) (mn : Text) (mode : Mode) (ops : List Byte) (s : State) :
    knownStep c mn mode ops s = { s with
      lines := s.lines ++ [knownLine s.pc mn (fmt mode ops s.pc)]
      calls := if mn ∈ c.call then TextSet.insert (descriptor mn (fmt mode ops s.pc)) s.calls else s.calls
      branches := if mode = .rel then TextSet.insert (descriptor mn (fmt mode ops s.pc)) s.branches else s.branches
      ws :=
        if mn ∈ c.rep then
          widthUpdate resetStatus ops (if mn ∈ c.sep then widthUpdate setStatus ops s.ws else s.ws)
        else if mn ∈ c.sep then widthUpdate setStatus ops s.ws else s.ws
      cur := s.cur + instrSize mode s.ws
      phase := if mn ∈ c.ret ∨ s.endOff ≤ s.cur + instrSize mode s.ws then .done else s.phase } := by
  simp only [knownStep]
  split_ifs <;> first
    | rfl
    | (exfalso
       revert ‹_ ∨ _›
       simp_all [State.appendLine, State.addCall, State.addBranch, State.setWidth])

/-- Whatever a step of the Decode Loop answers: the raw-byte step of an unknown opcode, or the step of a table entry with
the captured operand bytes. -/
theorem sequencerStep_next {p : Params} {s t : State} (h : sequencerStep p s = .next t) :
    ∃ op, s.readByte s.cur = .ok op ∧
      ((p.rom op = none ∧ t = s.after (rawLine s.pc op) 1) ∨
        ∃ e ops, p.rom op = some e ∧ s.capture (s.cur + 1) (s.navail (instrSize e.mode s.ws)) = .ok ops ∧
          t = knownStep p.classes e.mnemonic e.mode ops s) := by
  cases hop : s.readByte s.cur with
  | error f => simp [sequencerStep, hop] at h
  | ok op =>
    refine ⟨op, rfl, ?_⟩
    cases he : p.rom op with
    | none =>
      rw [sequencerStep_unknown hop he] at h
      exact Or.inl ⟨rfl, (Host.Outcome.next.inj h).symm⟩
    | some e =>
      cases hc : s.capture (s.cur + 1) (s.navail (instrSize e.mode s.ws)) with
      | error f => simp [sequencerStep, hop, he, hc] at h
      | ok ops =>
        simp only [sequencerStep, hop, he, hc] at h
        exact Or.inr ⟨e, ops, rfl, hc, (Host.Outcome.next.inj h).symm⟩

theorem stepAdmitted_next_run {p : Params} {s t : State} (hr : s.phase = .run) (h : stepAdmitted p s = .next t) :
    s.BufferStable ∧ sequencerStep p s = .next t := by
  unfold stepAdmitted at h
  simp only [hr] at h
  split at h
  · cases h
  · rename_i hx
    exact ⟨fun b r hb => hx _ _ hb, h⟩

/-- The program counter moves with the cursor. -/
theorem State.pc_of_shift {s t : State} {n : Nat} (h1 : t.ra = s.ra) (h2 : t.start = s.start) (h3 : t.cur = s.cur + n) :
    t.pc = s.pc + BitVec.ofNat 16 n := by
  simp only [State.pc, h1, h2, h3]
  rw [BitVec.ofNat_add]
  simp only [BitVec.sub_eq_add_neg]
  ac_rfl

theorem lengthOf_some {rom : Rom} {op : Byte} {e : Entry} {ws : WidthState} (h : rom op = some e) :
    lengthOf rom ws op = instrSize e.mode ws := by
  simp [lengthOf, h]

theorem lengthOf_none {rom : Rom} {op : Byte} {ws : WidthState} (h : rom op = none) : lengthOf rom ws op = 1 := by
  simp [lengthOf, h]

/-- The class sets of an admissible table are disjoint. -/
theorem Params.Admissible.classes_disjoint {p : Params} (hp : p.Admissible) (mn : Text) :
    (mn ∈ p.classes.call → mn ∉ p.classes.ret ∧ mn ∉ p.classes.sep ∧ mn ∉ p.classes.rep) ∧
    (mn ∈ p.classes.ret → mn ∉ p.classes.call ∧ mn ∉ p.classes.sep ∧ mn ∉ p.classes.rep) ∧
    (mn ∈ p.classes.sep → mn ∉ p.classes.ret ∧ mn ∉ p.classes.call ∧ mn ∉ p.classes.rep) ∧
    (mn ∈ p.classes.rep → mn ∉ p.classes.ret ∧ mn ∉ p.classes.sep ∧ mn ∉ p.classes.call) := by
  have := hp.disjoint mn
  by_cases h1 : mn ∈ p.classes.call <;> by_cases h2 : mn ∈ p.classes.ret <;> by_cases h3 : mn ∈ p.classes.sep <;>
    by_cases h4 : mn ∈ p.classes.rep <;> simp_all

/-! ### The step of a table entry, class by class -/

section
variable {c : ClassSets} {mn : Text} {mode : Mode} {ops : List Byte} {s : State}

theorem knownStep_plain (h1 : mn ∉ c.call) (h2 : mn ∉ c.ret) (h3 : mn ∉ c.sep) (h4 : mn ∉ c.rep) (h5 : mode ≠ .rel) :
    knownStep c mn mode ops s = plainStep mn mode ops s := by
  rw [knownStep_eq, plainStep_eq]
  simp [*]

theorem knownStep_call (h1 : mn ∈ c.call) (h2 : mn ∉ c.ret) (h3 : mn ∉ c.sep) (h4 : mn ∉ c.rep) (h5 : mode ≠ .rel) :
    knownStep c mn mode ops s = callStep mn mode ops s := by
  rw [knownStep_eq, callStep_eq]
  simp [*]

theorem knownStep_branch (h1 : mn ∉ c.call) (h2 : mn ∉ c.ret) (h3 : mn ∉ c.sep) (h4 : mn ∉ c.rep) :
    knownStep c mn .rel ops s = branchStep mn ops s := by
  rw [knownStep_eq, branchStep_eq]
  simp [*, instrSize]

theorem knownStep_return (h1 : mn ∉ c.call) (h2 : mn ∈ c.ret) (h3 : mn ∉ c.sep) (h4 : mn ∉ c.rep) :
    knownStep c mn .imp [] s = returnStep mn s := by
  rw [knownStep_eq, returnStep_eq]
  simp [*, instrSize, fmt]

theorem knownStep_set (h1 : mn ∉ c.call) (h2 : mn ∉ c.ret) (h3 : mn ∈ c.sep) (h4 : mn ∉ c.rep) :
    knownStep c mn .imm8 ops s = statusStep setStatus mn ops s := by
  rw [knownStep_eq, statusStep_eq]
  simp [*, instrSize]

theorem knownStep_reset (h1 : mn ∉ c.call) (h2 : mn ∉ c.ret) (h3 : mn ∉ c.sep) (h4 : mn ∈ c.rep) :
    knownStep c mn .imm8 ops s = statusStep resetStatus mn ops s := by
  rw [knownStep_eq, statusStep_eq]
  simp [*, instrSize]

end

/-! ### Opcodes and instructions -/

/-- Every opcode is outside the reference fill, and then a raw byte, or one of its rows. -/
theorem refRom_cases : ∀ op : Byte, (refRom op = none ∧ ofOpcode op [] = .byte op) ∨ op ∈ refRows.map (·.opcode) := by
  decide +kernel

theorem refRom_row_known : ∀ op ∈ refRows.map (·.opcode), refRom op ≠ none := by decide +kernel

/-- The instruction of an opcode carries that opcode and the captured operand bytes, and is well formed. -/
theorem ofOpcode_spec (op : Byte) (ops : List Byte) (ws : WidthState) (h : ops.length < lengthOf refRom ws op) :
    (ofOpcode op ops).ops = ops ∧ (ofOpcode op ops).opcode = op ∧ (ofOpcode op ops).wf ws = true := by
  rcases refRom_cases op with ⟨h0, h1⟩ | h1
  · have hl : lengthOf refRom ws op = 1 := lengthOf_none h0
    obtain rfl : ops = [] := List.length_eq_zero_iff.1 (by omega)
    rw [h1]
    exact ⟨rfl, rfl, by simp [Instr.wf, h0]⟩
  · simp only [refRows, branchRows, callReturnRows, immediateRows, memoryImplicitRows, List.map_cons, List.map_nil,
      List.cons_append, List.nil_append, List.mem_cons, List.not_mem_nil, or_false] at h1
    rcases h1 with rfl | rfl | rfl | rfl | rfl | rfl | rfl | rfl | rfl | rfl | rfl | rfl | rfl | rfl | rfl | rfl |
      rfl | rfl | rfl | rfl | rfl | rfl | rfl | rfl | rfl | rfl | rfl | rfl | rfl | rfl | rfl | rfl
    all_goals first
      | exact ⟨rfl, rfl, decide_eq_true h⟩
      | (obtain rfl : ops = [] := List.length_eq_zero_iff.1 (Nat.lt_one_iff.1 h)
         exact ⟨rfl, rfl, rfl⟩)

theorem ofOpcode_self {ws : WidthState} {i : Instr} (h : i.wf ws = true) : ofOpcode i.opcode i.ops = i := by
  cases i <;> try rfl
  rename_i op
  rcases refRom_cases op with ⟨-, h1⟩ | h1
  · exact h1
  · exact absurd (Option.isNone_iff_eq_none.1 h) (refRom_row_known op h1)

theorem Instr.ops_length_lt {ws : WidthState} {i : Instr} (h : i.wf ws = true) :
    i.ops.length < lengthOf refRom ws i.opcode := by
  cases i <;> first
    | exact of_decide_eq_true h
    | exact lengthOf_pos _ _ _

/-! ### Texts -/

theorem testBits_accBit : ∀ q : Byte, testBits q accBit = q.getLsbD 5 := by decide +kernel

theorem testBits_idxBit : ∀ q : Byte, testBits q idxBit = q.getLsbD 4 := by decide +kernel

theorem word16_eq (ops : List Byte) : word16 ops = (ops.getD 0 0).toNat + 256 * (ops.getD 1 0).toNat := by
  have := (ops.getD 0 0).isLt
  show (ops.getD 0 0).toNat ||| (ops.getD 1 0).toNat <<< 8 = _
  rw [Nat.or_comm, ← Nat.shiftLeft_add_eq_or_of_lt (by omega), Nat.shiftLeft_eq]
  omega

theorem word24_eq (ops : List Byte) :
    word24 ops = (ops.getD 0 0).toNat + 256 * (ops.getD 1 0).toNat + 65536 * (ops.getD 2 0).toNat := by
  have h0 := (ops.getD 0 0).isLt
  have h1 := (ops.getD 1 0).isLt
  have := word16_eq ops
  unfold word24
  rw [Nat.or_comm, ← Nat.shiftLeft_add_eq_or_of_lt (by omega), Nat.shiftLeft_eq, this]
  simp only [opByte]
  omega

theorem immText_eq (ops : List Byte) :
    immText ops = ['#', '$'] ++ (if ops.length ≤ 1 then hexN 2 (ops.getD 0 0).toNat
      else hexN 4 ((ops.getD 0 0).toNat + 256 * (ops.getD 1 0).toNat)) := by
  simp only [immText, word16_eq]
  by_cases hc : ops.length ≤ 1
  · rw [if_pos (by omega), if_pos hc]
    rfl
  · rw [if_neg (by omega), if_neg hc]

theorem hexN_head_noSpace {n v : Nat} {t : Text} (hn : n ≠ 0) :
    ∀ c, (hexN n v ++ t).head? = some c → (c == ' ') = false := by
  intro c hc
  have hne : hexN n v ≠ [] := fun h => hn (by have := congrArg List.length h; simpa using this)
  obtain ⟨d, u, hu⟩ := List.exists_cons_of_ne_nil hne
  rw [hu, List.cons_append, List.head?_cons, Option.some.injEq] at hc
  subst hc
  exact hexDigits_noSpace d (hexN_mem n v d (by simp [hu]))

/-- A line whose operand text does not end in a space is not shortened by the trim. -/
theorem knownLine_of_text {pc : Addr} {mn text : Text} (ht : text ≠ [])
    (hl : ∀ c, text.getLast? = some c → (c == ' ') = false) :
    knownLine pc mn text = hexN 4 pc.toNat ++ [':', ' '] ++ mn ++ [' '] ++ text := by
  refine trim_eq_self (by simp) ?_ fun c hc => hl c (by rwa [List.getLast?_append_of_ne_nil _ ht] at hc)
  intro c hc
  simp only [List.append_assoc] at hc
  exact hexN_head_noSpace (by omega) c hc

/-- A line without operand text ends with its mnemonic. -/
theorem knownLine_no_operand {pc : Addr} {mn t : Text} {c : Char} (hmn : mn = t ++ [c]) (hc : (c == ' ') = false) :
    knownLine pc mn [] = hexN 4 pc.toNat ++ [':', ' '] ++ mn := by
  unfold knownLine
  rw [List.append_nil]
  refine trim_trailing (by simp) ?_ ?_
  · intro d hd
    simp only [List.append_assoc] at hd
    exact hexN_head_noSpace (by omega) d hd
  · intro d hd
    subst hmn
    rw [← List.append_assoc, List.getLast?_append] at hd
    simp at hd
    subst hd
    exact hc

end Sys2Proof.Machine
end

