-- ==== Sys2Proof/Tests/Slice0.lean ====
section
/-! SUPPORT. The model's own tests: the refusals of the well-formedness check, a word decoded for every instruction, one
step on small launched states against the spec's vectors (spec/95_test_vectors.md), and for every statement with hypotheses
a state that meets them. Every expected value is the spec's, none is the model's answer. -/

namespace Sys2Proof.Tests

open Sys2Proof Sys2Proof.Machine

/-! ### Helpers -/

/-- The core right after a launch with the given bytes. -/
def launched (bs : List Byte) (ra : Addr) (maxBytes : Option Nat) : State :=
  State.reset.launchWith linearOffset (Buffer.ofBytes bs) ra maxBytes

/-- A launch with the given width flags instead of the launch's. -/
def launchedAt (ws : WidthState) (bs : List Byte) : State := (launched bs 0x8000 none).setWidth ws

/-- The registers a step shows. -/
structure Seen where
  lines : List Text
  calls : List Text
  branches : List Text
  cur : Nat
  ws : WidthState
  phase : Phase
deriving DecidableEq, Repr

def seen : Host.Outcome State Fault Refusal → Option Seen
  | .next t => some ⟨t.lines, t.calls, t.branches, t.cur, t.ws, t.phase⟩
  | .fault _ => none
  | .refused _ => none

/-- The line of a one-instruction pass that is no flow control, its size and the end of its window. -/
def plainSeen (line : String) (n : Nat) (ws : WidthState) (phase : Phase) : Option Seen :=
  some ⟨[line.toList], [], [], n, ws, phase⟩

/-- The word decodes in the launch's width state to `i`, with nothing left. -/
def reads (bs : List Byte) (i : Instr) : Prop := decode WidthState.launch bs = .ok (i, [])

/-! ### Well-formedness refuses ill-formed terms (a smoke test with one term for each check) -/

theorem test_wf_refuses_known_opcode_as_raw_byte : Instr.wf ⟨true, true⟩ (.byte 0x60) = false := by decide
theorem test_wf_accepts_unknown_opcode_as_raw_byte : Instr.wf ⟨true, true⟩ (.byte 0x00) = true := by decide
theorem test_wf_refuses_too_many_operand_bytes : Instr.wf ⟨true, true⟩ (.jsr [0, 0, 0]) = false := by decide
theorem test_wf_refuses_second_byte_of_8_bit_immediate : Instr.wf ⟨true, true⟩ (.ldaImm [0, 0]) = false := by decide
theorem test_wf_accepts_second_byte_of_16_bit_immediate : Instr.wf ⟨false, true⟩ (.ldaImm [0, 0]) = true := by decide
theorem test_wf_index_width_not_accumulator_width : Instr.wf ⟨false, true⟩ (.ldxImm [0, 0]) = false := by decide
theorem test_complete_refuses_truncated : Instr.complete ⟨true, true⟩ (.jsl [0, 0]) = false := by decide

/-! ### Decoding: one word written out for every instruction (R58, R68) -/

theorem test_decode_bpl : reads [0x10, 0x7E] (.bpl [0x7E]) := rfl
theorem test_decode_bmi : reads [0x30, 0x80] (.bmi [0x80]) := rfl
theorem test_decode_bvc : reads [0x50, 0x00] (.bvc [0x00]) := rfl
theorem test_decode_bvs : reads [0x70, 0xFE] (.bvs [0xFE]) := rfl
theorem test_decode_bra : reads [0x80, 0xFE] (.bra [0xFE]) := rfl
theorem test_decode_bcc : reads [0x90, 0x10] (.bcc [0x10]) := rfl
theorem test_decode_bcs : reads [0xB0, 0xF0] (.bcs [0xF0]) := rfl
theorem test_decode_bne : reads [0xD0, 0x02] (.bne [0x02]) := rfl
theorem test_decode_beq : reads [0xF0, 0x80] (.beq [0x80]) := rfl
theorem test_decode_jsr : reads [0x20, 0x00, 0x90] (.jsr [0x00, 0x90]) := rfl
theorem test_decode_jsl : reads [0x22, 0x00, 0x80, 0x01] (.jsl [0x00, 0x80, 0x01]) := rfl
theorem test_decode_jmp : reads [0x4C, 0x34, 0x12] (.jmp [0x34, 0x12]) := rfl
theorem test_decode_jml : reads [0x5C, 0x00, 0x00, 0xC0] (.jml [0x00, 0x00, 0xC0]) := rfl
theorem test_decode_rts : reads [0x60] (.rts) := rfl
theorem test_decode_rtl : reads [0x6B] (.rtl) := rfl
theorem test_decode_rti : reads [0x40] (.rti) := rfl
theorem test_decode_sep : reads [0xE2, 0x30] (.sep [0x30]) := rfl
theorem test_decode_rep : reads [0xC2, 0x20] (.rep [0x20]) := rfl
theorem test_decode_ldaImm : reads [0xA9, 0x01] (.ldaImm [0x01]) := rfl
theorem test_decode_andImm : reads [0x29, 0x0F] (.andImm [0x0F]) := rfl
theorem test_decode_cmpImm : reads [0xC9, 0x80] (.cmpImm [0x80]) := rfl
theorem test_decode_ldxImm : reads [0xA2, 0xFF] (.ldxImm [0xFF]) := rfl
theorem test_decode_ldyImm : reads [0xA0, 0x05] (.ldyImm [0x05]) := rfl
theorem test_decode_staAbs : reads [0x8D, 0x00, 0x21] (.staAbs [0x00, 0x21]) := rfl
theorem test_decode_ldaAbs : reads [0xAD, 0x12, 0x42] (.ldaAbs [0x12, 0x42]) := rfl
theorem test_decode_ldaAbsY : reads [0xB9, 0x00, 0x80] (.ldaAbsY [0x00, 0x80]) := rfl
theorem test_decode_staDpX : reads [0x95, 0x10] (.staDpX [0x10]) := rfl
theorem test_decode_staLong : reads [0x8F, 0x00, 0x00, 0x7E] (.staLong [0x00, 0x00, 0x7E]) := rfl
theorem test_decode_sei : reads [0x78] (.sei) := rfl
theorem test_decode_clc : reads [0x18] (.clc) := rfl
theorem test_decode_xce : reads [0xFB] (.xce) := rfl
theorem test_decode_nop : reads [0xEA] (.nop) := rfl
theorem test_decode_byte : reads [0xFF] (.byte 0xFF) := rfl
theorem test_decode_16_bit_immediate : decode ⟨false, true⟩ [0xA9, 0x34, 0x12, 0x60] = .ok (.ldaImm [0x34, 0x12], [0x60]) := rfl
theorem test_decode_empty_refused : decode ⟨true, true⟩ [] = .error .noOpcodeByte := rfl
theorem test_decode_table_word : decodeTableWord 8 0x22 = some (.jsl [0x00, 0x00, 0x00]) := rfl

/-! ### One step of every instruction (spec/95_test_vectors.md, sections 2.4 to 2.8) -/

/-- The nine relative branches: one conjunct an instruction, its vector beside it. -/
theorem test_step_branches :
    -- bpl: V89, S3.
    seen (step (launchedAt ⟨true, true⟩ [0x10, 0x7E, 0xEA])) =
      some ⟨["8000: bpl $8080".toList], [], ["BPL $8080".toList], 2, ⟨true, true⟩, .run⟩ ∧
    -- bmi: V90, S4.
    seen (step (launchedAt ⟨true, true⟩ [0x30, 0x80, 0xEA])) =
      some ⟨["8000: bmi $7F82".toList], [], ["BMI $7F82".toList], 2, ⟨true, true⟩, .run⟩ ∧
    -- bvc: V91.
    seen (step (launchedAt ⟨true, true⟩ [0x50, 0x00, 0xEA])) =
      some ⟨["8000: bvc $8002".toList], [], ["BVC $8002".toList], 2, ⟨true, true⟩, .run⟩ ∧
    -- bvs: V92.
    seen (step (launchedAt ⟨true, true⟩ [0x70, 0xFE, 0xEA])) =
      some ⟨["8000: bvs $8000".toList], [], ["BVS $8000".toList], 2, ⟨true, true⟩, .run⟩ ∧
    -- bra: V93.
    seen (step (launchedAt ⟨true, true⟩ [0x80, 0xFE, 0xEA])) =
      some ⟨["8000: bra $8000".toList], [], ["BRA $8000".toList], 2, ⟨true, true⟩, .run⟩ ∧
    -- bcc: V94.
    seen (step (launchedAt ⟨true, true⟩ [0x90, 0x10, 0xEA])) =
      some ⟨["8000: bcc $8012".toList], [], ["BCC $8012".toList], 2, ⟨true, true⟩, .run⟩ ∧
    -- bcs: V95.
    seen (step (launchedAt ⟨true, true⟩ [0xB0, 0xF0, 0xEA])) =
      some ⟨["8000: bcs $7FF2".toList], [], ["BCS $7FF2".toList], 2, ⟨true, true⟩, .run⟩ ∧
    -- bne: V96.
    seen (step (launchedAt ⟨true, true⟩ [0xD0, 0x02, 0xEA])) =
      some ⟨["8000: bne $8004".toList], [], ["BNE $8004".toList], 2, ⟨true, true⟩, .run⟩ ∧
    -- beq: V97.
    seen (step (launchedAt ⟨true, true⟩ [0xF0, 0x80, 0xEA])) =
      some ⟨["8000: beq $7F82".toList], [], ["BEQ $7F82".toList], 2, ⟨true, true⟩, .run⟩ ∧
    -- bmi wraps: V105: the target wraps downward.
    seen (step (launched [0x30, 0x80] 0x0000 none)) =
      some ⟨["0000: bmi $FF82".toList], [], ["BMI $FF82".toList], 2, ⟨true, true⟩, .done⟩ := by
  decide +kernel

/-- Calls and jumps; a jump does not end the pass: one conjunct an instruction, its vector beside it. -/
theorem test_step_calls :
    -- jsr: V85.
    seen (step (launchedAt ⟨true, true⟩ [0x20, 0x00, 0x90, 0xEA])) =
      some ⟨["8000: jsr $9000".toList], ["JSR $9000".toList], [], 3, ⟨true, true⟩, .run⟩ ∧
    -- jsl: V86.
    seen (step (launchedAt ⟨true, true⟩ [0x22, 0x00, 0x80, 0x00])) =
      some ⟨["8000: jsl $008000".toList], ["JSL $008000".toList], [], 4, ⟨true, true⟩, .done⟩ ∧
    -- jsl truncated: V103.
    seen (step (launchedAt ⟨true, true⟩ [0x22, 0x34])) =
      some ⟨["8000: jsl $000034".toList], ["JSL $000034".toList], [], 4, ⟨true, true⟩, .done⟩ ∧
    -- jmp: V87: a jump does not end the pass.
    seen (step (launchedAt ⟨true, true⟩ [0x4C, 0x34, 0x12, 0xEA])) =
      some ⟨["8000: jmp $1234".toList], ["JMP $1234".toList], [], 3, ⟨true, true⟩, .run⟩ ∧
    -- jml: V88.
    seen (step (launchedAt ⟨true, true⟩ [0x5C, 0x00, 0x00, 0xC0])) =
      some ⟨["8000: jml $C00000".toList], ["JML $C00000".toList], [], 4, ⟨true, true⟩, .done⟩ := by
  decide +kernel

/-- Returns: one conjunct an instruction, its vector beside it. -/
theorem test_step_returns :
    -- rts: V98.
    seen (step (launchedAt ⟨true, true⟩ [0x60, 0xEA])) = plainSeen "8000: rts" 1 ⟨true, true⟩ .done ∧
    -- rtl: V99.
    seen (step (launchedAt ⟨true, true⟩ [0x6B, 0xEA])) = plainSeen "8000: rtl" 1 ⟨true, true⟩ .done ∧
    -- rti: V100.
    seen (step (launchedAt ⟨true, true⟩ [0x40, 0xEA])) = plainSeen "8000: rti" 1 ⟨true, true⟩ .done := by
  decide +kernel

/-- Set and reset status: one conjunct an instruction, its vector beside it. -/
theorem test_step_status :
    -- sep accumulator: V54.
    seen (step (launchedAt ⟨true, true⟩ [0xE2, 0x20, 0xEA])) = plainSeen "8000: sep #$20" 2 ⟨false, true⟩ .run ∧
    -- sep truncated: V63.
    seen (step (launchedAt ⟨true, true⟩ [0xE2])) = plainSeen "8000: sep #$00" 2 ⟨true, true⟩ .done ∧
    -- rep index: V60, its second step.
    seen (step (launchedAt ⟨false, false⟩ [0xC2, 0x10])) = plainSeen "8000: rep #$10" 2 ⟨false, true⟩ .done ∧
    -- rep all bits: V61, its second step.
    seen (step (launchedAt ⟨false, false⟩ [0xC2, 0xFF])) = plainSeen "8000: rep #$FF" 2 ⟨true, true⟩ .done := by
  decide +kernel

/-- Width-dependent immediates, complete, truncated and clipped by the window: one conjunct an instruction, its vector beside it. -/
theorem test_step_immediates :
    -- lda imm 16 bit: V68, S2.
    seen (step (launchedAt ⟨false, true⟩ [0xA9, 0x34, 0x12, 0x60])) = plainSeen "8000: lda #$1234" 3 ⟨false, true⟩ .run ∧
    -- and imm: V69.
    seen (step (launchedAt ⟨true, true⟩ [0x29, 0x0F])) = plainSeen "8000: and #$0F" 2 ⟨true, true⟩ .done ∧
    -- cmp imm 16 bit: V70.
    seen (step (launchedAt ⟨false, true⟩ [0xC9, 0x00, 0x80])) = plainSeen "8000: cmp #$8000" 3 ⟨false, true⟩ .done ∧
    -- ldx imm ignores accumulator width: V72.
    seen (step (launchedAt ⟨false, true⟩ [0xA2, 0xFF])) = plainSeen "8000: ldx #$FF" 2 ⟨false, true⟩ .done ∧
    -- ldx imm truncated: V83, its second step.
    seen (step (launchedAt ⟨true, false⟩ [0xA2, 0x34])) = plainSeen "8000: ldx #$34" 3 ⟨true, false⟩ .done ∧
    -- ldy imm: V73.
    seen (step (launchedAt ⟨true, true⟩ [0xA0, 0x00])) = plainSeen "8000: ldy #$00" 2 ⟨true, true⟩ .done ∧
    -- window clips: V51, its second step: the window, not the buffer, clips the operand.
    seen (step { launched [0xEA, 0xA9, 0x01, 0x60] 0x8000 (some 2) with cur := 1 }) =
      some ⟨["8001: lda #$00".toList], [], [], 3, ⟨true, true⟩, .done⟩ := by
  decide +kernel

/-- Memory-operand forms: one conjunct an instruction, its vector beside it. -/
theorem test_step_memory_forms :
    -- sta abs: V74.
    seen (step (launchedAt ⟨true, true⟩ [0x8D, 0x00, 0x21])) = plainSeen "8000: sta $2100" 3 ⟨true, true⟩ .done ∧
    -- lda abs: V75.
    seen (step (launchedAt ⟨true, true⟩ [0xAD, 0x12, 0x42])) = plainSeen "8000: lda $4212" 3 ⟨true, true⟩ .done ∧
    -- lda abs y: V76.
    seen (step (launchedAt ⟨true, true⟩ [0xB9, 0x00, 0x80])) = plainSeen "8000: lda $8000,Y" 3 ⟨true, true⟩ .done ∧
    -- sta dp x: V77.
    seen (step (launchedAt ⟨true, true⟩ [0x95, 0x10])) = plainSeen "8000: sta $10,X" 2 ⟨true, true⟩ .done ∧
    -- sta long: V78.
    seen (step (launchedAt ⟨true, true⟩ [0x8F, 0x00, 0x00, 0x7E])) = plainSeen "8000: sta $7E0000" 4 ⟨true, true⟩ .done := by
  decide +kernel

/-- Implicit forms: one conjunct an instruction, its vector beside it. -/
theorem test_step_implicit :
    -- sei: V79.
    seen (step (launchedAt ⟨true, true⟩ [0x78])) = plainSeen "8000: sei" 1 ⟨true, true⟩ .done ∧
    -- clc: V80.
    seen (step (launchedAt ⟨true, true⟩ [0x18])) = plainSeen "8000: clc" 1 ⟨true, true⟩ .done ∧
    -- xce: V81.
    seen (step (launchedAt ⟨true, true⟩ [0xFB, 0xEA])) = plainSeen "8000: xce" 1 ⟨true, true⟩ .run ∧
    -- nop: V82.
    seen (step (launchedAt ⟨true, true⟩ [0xEA, 0xEA])) = plainSeen "8000: nop" 1 ⟨true, true⟩ .run := by
  decide +kernel

/-- Raw bytes: one conjunct an instruction, its vector beside it. -/
theorem test_step_raw_byte :
    -- raw byte: S1.
    seen (step (launchedAt ⟨true, true⟩ [0x00, 0xA9])) = plainSeen "8000: .byte $00" 1 ⟨true, true⟩ .run ∧
    -- raw byte at end: P4, step 10.
    seen (step (launchedAt ⟨true, true⟩ [0xFF])) = plainSeen "8000: .byte $FF" 1 ⟨true, true⟩ .done := by
  decide +kernel

/-- V101: a repeated descriptor appears once, and the sets are sorted. -/
theorem test_sets_sorted :
    sortedSet ["BNE $8006".toList, "BNE $8002".toList, "BNE $8006".toList] = ["BNE $8002".toList, "BNE $8006".toList] := by
  decide +kernel

/-! ### The mapper, launch and rest states (spec/95_test_vectors.md, sections 2.1 and 2.4) -/

/-- V7, V4. -/
theorem test_mapper : linearOffset 0xFF 0xFFFF = 0x7FFFFF ∧ linearOffset 0x00 0x8123 = 0x123 := by decide
/-- V47: an empty window ends the pass at launch. -/
theorem test_launch_empty_window :
    (launched [0xA9, 0x01, 0x60] 0x8003 none).result? = some ⟨[], [], []⟩ := by decide
/-- V50: `START` above `END` is an empty window too. -/
theorem test_launch_start_above_end :
    (launched [0xEA, 0x60] 0x0123 none).phase = .done ∧ (launched [0xEA, 0x60] 0x0123 none).start = 0x123 ∧
      (launched [0xEA, 0x60] 0x0123 none).endOff = 2 := by decide
/-- R100: the default budget is `0x180`. -/
theorem test_launch_default_budget :
    (State.reset.launchWith linearOffset ⟨[], 0x200⟩ 0x8000 none).endOff = 0x180 := by decide
/-- R210, D15: at power-on no step is enabled. -/
theorem test_power_on_rests : step State.reset = .refused .noStepEnabled := rfl

/-! ### A stored word is the next instruction -/

theorem test_fetch_word_runs_rts : step (State.reset.withFetchWord 8 0x60) = exec .rts (State.reset.withFetchWord 8 0x60) := rfl
theorem test_fetch_word_runs_jsl :
    step (State.reset.withFetchWord 8 0x22) = exec (.jsl [0, 0, 0]) (State.reset.withFetchWord 8 0x22) := rfl
theorem test_fetch_word_runs_raw_byte :
    step (State.reset.withFetchWord 8 0x00) = exec (.byte 0x00) (State.reset.withFetchWord 8 0x00) := rfl

/-! ### Fault and refusal

The one fault is raised only in a state that no launch leads to: a window that is longer than its buffer. -/

theorem test_fault_outside_buffer :
    step { launched [] 0x8000 none with phase := .run, endOff := 1 } = .fault (.readOutsideWindow 0) := rfl

/-! ### Witnesses: for every statement with hypotheses, states and operands that meet all of them together -/

theorem stable_nil {s : State} (h : s.host = []) : s.BufferStable := fun b rest h' => by rw [h] at h'; cases h'

/-- A launched state stands at the opcode its buffer holds at the start. -/
theorem atOpcode_of {s : State} {op : Byte} (h : s.phase = .run) (hh : s.host = [])
    (hi : s.start ≤ s.cur ∧ s.cur < s.endOff) (ho : s.buf.read? s.cur = some op) : s.AtOpcode op :=
  ⟨h, stable_nil hh, hi, ho⟩

/-- Bytes at consecutive offsets, checked one by one. -/
theorem bytes_of {b : Buffer} {k : Nat} {bs : List Byte}
    (h : ∀ j : Fin bs.length, b.read? (k + j.val) = some (bs.get j)) :
    ∀ j v, bs[j]? = some v → b.read? (k + j) = some v := by
  intro j v hj
  obtain ⟨hlt, hv⟩ := List.getElem?_eq_some_iff.1 hj
  rw [h ⟨j, hlt⟩, ← hv]
  rfl

/-- An admissible Opcode Table other than the reference fill: eight opcodes of it. -/
def smallRom : Rom := fun op =>
  if op ∈ ([0xA9, 0x60, 0x20, 0x22, 0xE2, 0xC2, 0x10, 0xEA] : List Byte) then refRom op else none

def smallParams : Params := ⟨smallRom, refClasses, linearOffset⟩

theorem smallRom_entries : ∀ op, smallRom op = none ∨
    ∃ e ∈ ([⟨mnLda, .immM⟩, ⟨mnRts, .imp⟩, ⟨mnJsr, .abs⟩, ⟨mnJsl, .long⟩, ⟨mnSep, .imm8⟩, ⟨mnRep, .imm8⟩, ⟨mnBpl, .rel⟩,
      ⟨mnNop, .imp⟩] : List Entry), smallRom op = some e := by
  decide +kernel

theorem smallParams_admissible : smallParams.Admissible := by
  have hmem : ∀ op e, smallParams.rom op = some e → e ∈ ([⟨mnLda, .immM⟩, ⟨mnRts, .imp⟩, ⟨mnJsr, .abs⟩, ⟨mnJsl, .long⟩,
      ⟨mnSep, .imm8⟩, ⟨mnRep, .imm8⟩, ⟨mnBpl, .rel⟩, ⟨mnNop, .imp⟩] : List Entry) := by
    intro op e h
    rcases smallRom_entries op with h0 | ⟨e', he', h'⟩
    · exact absurd (h0.symm.trans h) (by simp)
    · obtain rfl : e' = e := Option.some.inj (h'.symm.trans h)
      exact he'
  refine ⟨rfl, rfl, by decide, rfl, ?_, ?_, ?_, ?_⟩
  · intro op e h
    have := hmem op e h
    clear h
    revert e
    decide
  · intro op e h
    have := hmem op e h
    clear h
    revert e
    decide
  · intro op e h
    have := hmem op e h
    clear h
    revert e
    decide
  · intro mn
    simp only [smallParams, refClasses, List.mem_cons, List.not_mem_nil, or_false]
    by_cases h1 : mn = mnJsl; · subst h1; decide
    by_cases h2 : mn = mnJsr; · subst h2; decide
    by_cases h3 : mn = mnJmp; · subst h3; decide
    by_cases h4 : mn = mnJml; · subst h4; decide
    by_cases h5 : mn = mnRts; · subst h5; decide
    by_cases h6 : mn = mnRtl; · subst h6; decide
    by_cases h7 : mn = mnRti; · subst h7; decide
    by_cases h8 : mn = mnSep; · subst h8; decide
    by_cases h9 : mn = mnRep; · subst h9; decide
    simp [*]

theorem smallParams_next {s t : State} (h : stepAdmitted smallParams s = .next t) : stepWith smallParams s = .next t := by
  rwa [stepWith_of_rc5 smallParams_admissible.rc5]

/-- Tables outside RC5, one for each half: a call with an immediate operand, and a return that is a relative branch. -/
def badCall : Params := ⟨fun op => if op = 0x20 then some ⟨mnJsr, .imm8⟩ else none, refClasses, linearOffset⟩
def badReturn : Params := ⟨fun op => if op = 0x60 then some ⟨mnRts, .rel⟩ else none, refClasses, linearOffset⟩

/-- I11: a table outside RC5 is refused. -/
theorem test_table_outside_rc5_refused : stepWith badCall State.reset = .refused .tableOutsideRC5 :=
  if_neg (by decide +kernel)

/-- A launched state meets the invariant. -/
theorem launched_inv (bs : List Byte) (ra : Addr) (mb : Option Nat) : (launched bs ra mb).Inv linearOffset := by
  refine ⟨Buffer.ofBytes_wf bs, by simp [launched, State.reset], List.Pairwise.nil, List.Pairwise.nil, fun _ => rfl,
    fun _ => rfl, ?_, fun _ => ?_, fun _ => ?_⟩
  · intro h
    simp only [launched, State.launchWith_phase] at h
    split at h
    · exact ⟨Nat.le_refl _, ‹_›⟩
    · cases h
  · simp [launched]
  · simp [launched]

/-- A finished pass with a line and a descriptor, as V85 leaves it. -/
def finished : State :=
  { launched [0x20, 0x00, 0x90] 0x8000 none with
    cur := 3, phase := .done, lines := ["8000: jsr $9000".toList], calls := ["JSR $9000".toList] }

/-- A launch is waiting. -/
def waiting (s : State) (maxBytes : Option Nat) : State :=
  { s with host := [.launch (Buffer.ofBytes [0xA9, 0x01, 0x60]) 0x8000 maxBytes] }

theorem witness_DecodeEncodeRoundTrip :
    Instr.wf ⟨true, true⟩ (.jsl [0x34]) = true ∧ Instr.wf ⟨true, true⟩ (.jsr [0x00, 0x90]) = true ∧
      Instr.complete ⟨true, true⟩ (.jsr [0x00, 0x90]) = true ∧ Instr.complete ⟨true, true⟩ (.byte 0x00) = true := by decide

theorem witness_EncodeDecodeRoundTrip :
    decode ⟨true, true⟩ [0x20, 0x00, 0x90, 0x60] = .ok (.jsr [0x00, 0x90], [0x60]) ∧ ([0x20] : List Byte) ≠ [] :=
  ⟨rfl, by simp⟩

theorem witness_MissingBytesRenderAsZero :
    ∀ m ∈ [Mode.imp, .imm8, .abs, .absY, .dpX, .long, .rel], Mode.widthDependent m = false := by decide

theorem witness_WidthToggleChangesSizeByOne : Mode.widthDependent .long = false := rfl

theorem witness_LaunchInitialises :
    (waiting State.reset none).phase ≠ .run ∧ (waiting finished (some 0)).phase ≠ .run ∧
      (waiting finished (some 0)).host = .launch (Buffer.ofBytes [0xA9, 0x01, 0x60]) 0x8000 (some 0) :: [] :=
  ⟨by decide, by decide, rfl⟩

theorem witness_PassDependsOnLaunchInputs :
    (waiting State.reset none).phase ≠ .run ∧ (waiting finished none).phase ≠ .run ∧
      (waiting State.reset none).host = .launch (Buffer.ofBytes [0xA9, 0x01, 0x60]) 0x8000 none :: [] ∧
      (waiting finished none).host = (waiting State.reset none).host ∧ (waiting finished none).lines ≠ [] :=
  ⟨by decide, by decide, rfl, rfl, by simp [waiting, finished]⟩

/-- Both ways a window is empty: no budget, and a buffer that ends where the window starts. -/
theorem witness_EmptyWindowGivesEmptyResult :
    (waiting State.reset (some 0)).phase ≠ .run ∧
      (waiting State.reset (some 0)).host = .launch (Buffer.ofBytes [0xA9, 0x01, 0x60]) 0x8000 (some 0) :: [] ∧
      (Buffer.ofBytes [0xA9, 0x01, 0x60]).len ≤ linearOffset 0 0x8003 :=
  ⟨by decide, rfl, by decide⟩

theorem witness_NoStepOutsidePass :
    smallParams.RC5 ∧ State.reset.phase ≠ .run ∧ State.reset.host = [] ∧ finished.phase ≠ .run ∧ finished.host = [] :=
  ⟨smallParams_admissible.rc5, by decide, rfl, by decide, rfl⟩

theorem witness_BufferChangeDuringPassRefused :
    smallParams.RC5 ∧ ∃ s : State, s.phase = .run ∧ s.host = .changeBuffer ⟨[], 1⟩ :: [] :=
  ⟨smallParams_admissible.rc5, { launched [0x60] 0x8000 none with host := [.changeBuffer ⟨[], 1⟩] }, by decide, rfl⟩

/-- In `IDLE`, and in `DONE` with a result. -/
theorem witness_BufferChangeOutsidePassKeepsRegisters :
    smallParams.RC5 ∧ ({ State.reset with host := [.changeBuffer ⟨[], 1⟩] } : State).phase ≠ .run ∧
      ({ finished with host := [.changeBuffer ⟨[], 1⟩] } : State).phase ≠ .run ∧
      ({ finished with host := [.changeBuffer ⟨[], 1⟩] } : State).host = .changeBuffer ⟨[], 1⟩ :: [] ∧
      ({ finished with host := [.changeBuffer ⟨[], 1⟩] } : State).result? ≠ none :=
  ⟨smallParams_admissible.rc5, by decide, by decide, rfl, fun h => by cases h⟩

theorem witness_TableOutsideRC5Refused : ¬ badCall.RC5 ∧ ¬ badReturn.RC5 :=
  ⟨fun h => absurd (h 0x20 ⟨mnJsr, .imm8⟩ rfl).1 (by decide), fun h => absurd (h 0x60 ⟨mnRts, .rel⟩ rfl).2 (by decide)⟩

theorem witness_ResultSortedWithoutDuplicates :
    State.reset.phase ≠ .done ∧ (launched [0x60] 0x8000 none).phase ≠ .done ∧ finished.phase = .done := by decide

theorem witness_DuplicateDescriptorsAddNothing :
    TextSet.Sorted ["JML $010000".toList, "JMP $0100".toList] ∧
      "JMP $0100".toList ∈ ["JML $010000".toList, "JMP $0100".toList] ∧
      "JSR $0100".toList ∉ ["JML $010000".toList, "JMP $0100".toList] := by
  refine ⟨?_, by decide, by decide⟩
  exact List.pairwise_pair.2 (by decide +kernel)

theorem witness_LexicographicOrderTotal :
    textLt "JML".toList "JMP".toList = true ∧ textLt "JMP".toList "JSL".toList = true ∧
      "JML".toList ≠ "JMP".toList ∧ ("0".toList : Text) ≠ [] ∧ 'L'.toNat < 'P'.toNat := by decide +kernel

/-- An unknown opcode in the middle of a window, and one that ends it. -/
theorem witness_UnknownOpcodeEmitsRawByte :
    (launched [0x00, 0xEA] 0x8000 none).AtOpcode 0x00 ∧ (launched [0x00] 0x8000 none).AtOpcode 0x00 ∧
      smallParams.rom 0x00 = none ∧ smallParams.RC5 :=
  ⟨atOpcode_of (by decide) rfl (by decide) rfl, atOpcode_of (by decide) rfl (by decide) rfl, rfl,
    smallParams_admissible.rc5⟩

theorem entry_jsr (p : Params) (h : p.rom 0x20 = some ⟨mnJsr, .abs⟩) :
    (launched [0x20, 0x00, 0x90, 0xEA] 0x8000 none).AtEntry p 0x20 ⟨mnJsr, .abs⟩ [0x00, 0x90] :=
  { toAtOpcode := atOpcode_of (by decide) rfl (by decide) rfl, entry := h, captured := by decide,
    bytes := bytes_of (by decide) }

theorem entry_truncated (p : Params) (h : p.rom 0x22 = some ⟨mnJsl, .long⟩) :
    (launched [0x22, 0x34] 0x8000 none).AtEntry p 0x22 ⟨mnJsl, .long⟩ [0x34] :=
  { toAtOpcode := atOpcode_of (by decide) rfl (by decide) rfl, entry := h, captured := by decide,
    bytes := bytes_of (by decide) }

theorem entry_bpl (p : Params) (h : p.rom 0x10 = some ⟨mnBpl, .rel⟩) :
    (launched [0x10, 0x7E] 0x8000 none).AtEntry p 0x10 ⟨mnBpl, .rel⟩ [0x7E] :=
  { toAtOpcode := atOpcode_of (by decide) rfl (by decide) rfl, entry := h, captured := by decide,
    bytes := bytes_of (by decide) }

theorem entry_rts (p : Params) (h : p.rom 0x60 = some ⟨mnRts, .imp⟩) :
    (launched [0x60, 0xEA] 0x8000 none).AtEntry p 0x60 ⟨mnRts, .imp⟩ [] :=
  { toAtOpcode := atOpcode_of (by decide) rfl (by decide) rfl, entry := h, captured := by decide,
    bytes := bytes_of (by decide) }

theorem entry_nop (p : Params) (h : p.rom 0xEA = some ⟨mnNop, .imp⟩) :
    (launched [0xEA, 0x60] 0x8000 none).AtEntry p 0xEA ⟨mnNop, .imp⟩ [] :=
  { toAtOpcode := atOpcode_of (by decide) rfl (by decide) rfl, entry := h, captured := by decide,
    bytes := bytes_of (by decide) }

theorem entry_sep (p : Params) (h : p.rom 0xE2 = some ⟨mnSep, .imm8⟩) :
    (launched [0xE2, 0x30, 0xEA] 0x8000 none).AtEntry p 0xE2 ⟨mnSep, .imm8⟩ [0x30] :=
  { toAtOpcode := atOpcode_of (by decide) rfl (by decide) rfl, entry := h, captured := by decide,
    bytes := bytes_of (by decide) }

theorem entry_rep_truncated (p : Params) (h : p.rom 0xC2 = some ⟨mnRep, .imm8⟩) :
    (launched [0xC2] 0x8000 none).AtEntry p 0xC2 ⟨mnRep, .imm8⟩ [] :=
  { toAtOpcode := atOpcode_of (by decide) rfl (by decide) rfl, entry := h, captured := by decide,
    bytes := bytes_of (by decide) }

theorem entry_lda_16_bit (p : Params) (h : p.rom 0xA9 = some ⟨mnLda, .immM⟩) :
    (launchedAt ⟨false, true⟩ [0xA9, 0x34, 0x12]).AtEntry p 0xA9 ⟨mnLda, .immM⟩ [0x34, 0x12] :=
  { toAtOpcode := atOpcode_of (by decide) rfl (by decide) rfl, entry := h, captured := by decide,
    bytes := bytes_of (by decide) }

theorem entry_bpl_truncated (p : Params) (h : p.rom 0x10 = some ⟨mnBpl, .rel⟩) :
    (launched [0x10] 0x8000 none).AtEntry p 0x10 ⟨mnBpl, .rel⟩ [] :=
  { toAtOpcode := atOpcode_of (by decide) rfl (by decide) rfl, entry := h, captured := by decide,
    bytes := bytes_of (by decide) }

theorem entry_lda_8_bit (p : Params) (h : p.rom 0xA9 = some ⟨mnLda, .immM⟩) :
    (launched [0xA9, 0x01] 0x8000 none).AtEntry p 0xA9 ⟨mnLda, .immM⟩ [0x01] :=
  { toAtOpcode := atOpcode_of (by decide) rfl (by decide) rfl, entry := h, captured := by decide,
    bytes := bytes_of (by decide) }

theorem entry_lda_truncated (p : Params) (h : p.rom 0xA9 = some ⟨mnLda, .immM⟩) :
    (launched [0xA9] 0x8000 none).AtEntry p 0xA9 ⟨mnLda, .immM⟩ [] :=
  { toAtOpcode := atOpcode_of (by decide) rfl (by decide) rfl, entry := h, captured := by decide,
    bytes := bytes_of (by decide) }

/-- A call, a truncated call, a branch that exhausts the window, a return, a status entry with its operand byte and one
without. -/
theorem witness_KnownOpcodeStep :
    smallParams.RC5 ∧
    (launched [0x20, 0x00, 0x90, 0xEA] 0x8000 none).AtEntry smallParams 0x20 ⟨mnJsr, .abs⟩ [0x00, 0x90] ∧
    (launched [0x22, 0x34] 0x8000 none).AtEntry smallParams 0x22 ⟨mnJsl, .long⟩ [0x34] ∧
    (launched [0x10, 0x7E] 0x8000 none).AtEntry smallParams 0x10 ⟨mnBpl, .rel⟩ [0x7E] ∧
    (launched [0x60, 0xEA] 0x8000 none).AtEntry smallParams 0x60 ⟨mnRts, .imp⟩ [] ∧
    (launched [0xE2, 0x30, 0xEA] 0x8000 none).AtEntry smallParams 0xE2 ⟨mnSep, .imm8⟩ [0x30] ∧
    (launched [0xC2] 0x8000 none).AtEntry smallParams 0xC2 ⟨mnRep, .imm8⟩ [] :=
  ⟨smallParams_admissible.rc5, entry_jsr _ rfl, entry_truncated _ rfl, entry_bpl _ rfl, entry_rts _ rfl, entry_sep _ rfl,
    entry_rep_truncated _ rfl⟩

/-- A branch with its operand byte, and one without. -/
theorem witness_BranchClassStep :
    smallParams.RC5 ∧ (launched [0x10, 0x7E] 0x8000 none).AtEntry smallParams 0x10 ⟨mnBpl, .rel⟩ [0x7E] ∧
      (launched [0x10] 0x8000 none).AtEntry smallParams 0x10 ⟨mnBpl, .rel⟩ [] :=
  ⟨smallParams_admissible.rc5, entry_bpl _ rfl, entry_bpl_truncated _ rfl⟩

theorem witness_CallClassStep :
    smallParams.Admissible ∧
      (launched [0x20, 0x00, 0x90, 0xEA] 0x8000 none).AtEntry smallParams 0x20 ⟨mnJsr, .abs⟩ [0x00, 0x90] ∧
      mnJsr ∈ smallParams.classes.call :=
  ⟨smallParams_admissible, entry_jsr _ rfl, by decide⟩

theorem witness_ReturnClassStep :
    smallParams.Admissible ∧ (launched [0x60, 0xEA] 0x8000 none).AtEntry smallParams 0x60 ⟨mnRts, .imp⟩ [] ∧
      mnRts ∈ smallParams.classes.ret :=
  ⟨smallParams_admissible, entry_rts _ rfl, by decide⟩

theorem witness_PlainClassStep :
    smallParams.RC5 ∧ (launched [0xEA, 0x60] 0x8000 none).AtEntry smallParams 0xEA ⟨mnNop, .imp⟩ [] ∧
      classOf smallParams.classes mnNop = .none ∧ Mode.imp ≠ .rel :=
  ⟨smallParams_admissible.rc5, entry_nop _ rfl, by decide, by decide⟩

/-- A set-status instruction with its operand byte, and a reset-status one without. -/
theorem witness_StatusClassWritesWidth :
    smallParams.Admissible ∧ (launched [0xE2, 0x30, 0xEA] 0x8000 none).AtEntry smallParams 0xE2 ⟨mnSep, .imm8⟩ [0x30] ∧
      mnSep ∈ smallParams.classes.sep ∧ (launched [0xC2] 0x8000 none).AtEntry smallParams 0xC2 ⟨mnRep, .imm8⟩ [] ∧
      mnRep ∈ smallParams.classes.rep :=
  ⟨smallParams_admissible, entry_sep _ rfl, by decide, entry_rep_truncated _ rfl, by decide⟩

/-- Two captured bytes, one, and none. -/
theorem witness_SourceFixedOpcodes :
    smallParams.Admissible ∧ smallParams.classes = refClasses ∧
      (launchedAt ⟨false, true⟩ [0xA9, 0x34, 0x12]).AtEntry smallParams 0xA9 ⟨mnLda, .immM⟩ [0x34, 0x12] ∧
      (launched [0xA9, 0x01] 0x8000 none).AtEntry smallParams 0xA9 ⟨mnLda, .immM⟩ [0x01] ∧
      (launched [0xA9] 0x8000 none).AtEntry smallParams 0xA9 ⟨mnLda, .immM⟩ [] ∧
      (launched [0x60, 0xEA] 0x8000 none).AtOpcode 0x60 :=
  ⟨smallParams_admissible, rfl, entry_lda_16_bit _ rfl, entry_lda_8_bit _ rfl, entry_lda_truncated _ rfl,
    (entry_rts smallParams rfl).toAtOpcode⟩

/-- Steps of length 1 and 4 that answer a next state. -/
theorem witness_OneLinePerStep :
    (launched [0xEA, 0x60] 0x8000 none).phase = .run ∧
      ∃ t, stepWith smallParams (launched [0xEA, 0x60] 0x8000 none) = .next t :=
  ⟨by decide, _, smallParams_next rfl⟩

theorem witness_CursorAdvancesByLength :
    (launched [0xEA, 0x60] 0x8000 none).AtOpcode 0xEA ∧
      (∃ t, stepWith smallParams (launched [0xEA, 0x60] 0x8000 none) = .next t) ∧
      (launched [0x22, 0x34] 0x8000 none).AtOpcode 0x22 ∧
      ∃ t, stepWith smallParams (launched [0x22, 0x34] 0x8000 none) = .next t :=
  ⟨(entry_nop smallParams rfl).toAtOpcode, ⟨_, smallParams_next rfl⟩, (entry_truncated smallParams rfl).toAtOpcode, _,
    smallParams_next rfl⟩

/-- P5: the top of the 16-bit space. -/
def atTop : State := State.reset.launchWith linearOffset ⟨[(0x7FFF, 0xEA), (0x8000, 0x60)], 0x8001⟩ 0xFFFF none

theorem witness_ProgramCounterWraps :
    atTop.AtOpcode 0xEA ∧ lengthOf smallParams.rom atTop.ws 0xEA = 1 ∧ atTop.pc = 0xFFFF ∧
      ∃ t, stepWith smallParams atTop = .next t :=
  ⟨atOpcode_of (by decide) rfl (by decide) (by decide), by decide, by decide, _, smallParams_next rfl⟩

/-- Two buffers that agree inside the window and differ at its end. -/
theorem witness_ReadsOnlyInsideWindow :
    (launched [0x20, 0x00, 0x90] 0x8000 (some 2)).Inv linearOffset ∧
      (launched [0x20, 0x00, 0x90] 0x8000 (some 2)).phase = .run ∧
      (∀ k, (launched [0x20, 0x00, 0x90] 0x8000 (some 2)).start ≤ k → k < (launched [0x20, 0x00, 0x90] 0x8000 (some 2)).endOff →
        (Buffer.ofBytes [0x20, 0x00, 0x91]).read? k = (launched [0x20, 0x00, 0x90] 0x8000 (some 2)).buf.read? k) ∧
      (Buffer.ofBytes [0x20, 0x00, 0x91]).read? 2 ≠ (launched [0x20, 0x00, 0x90] 0x8000 (some 2)).buf.read? 2 := by
  refine ⟨launched_inv _ _ _, by decide, ?_, by decide⟩
  intro k _ hk
  have hk' : k < 2 := hk
  interval_cases k <;> rfl

theorem witness_WindowConstantDuringPass :
    (launched [0xEA, 0x60] 0x8000 none).Inv linearOffset ∧ (launched [0xEA, 0x60] 0x8000 none).phase = .run ∧
      ∃ t, step (launched [0xEA, 0x60] 0x8000 none) = .next t :=
  ⟨launched_inv _ _ _, by decide, _, rfl⟩

/-- A complete instruction, and one clipped by the end of the window. -/
theorem witness_StepRunsDecodedInstruction :
    ((launched [0x20, 0x00, 0x90, 0xEA] 0x8000 none).AtOpcode (Instr.jsr [0x00, 0x90]).opcode ∧
      Instr.wf ⟨true, true⟩ (.jsr [0x00, 0x90]) = true ∧
      (encode (.jsr [0x00, 0x90])).length = min (lengthOf refRom ⟨true, true⟩ 0x20) (4 - 0) ∧
      ∀ j b, (encode (.jsr [0x00, 0x90]))[j]? = some b →
        (launched [0x20, 0x00, 0x90, 0xEA] 0x8000 none).buf.read? (0 + j) = some b) ∧
    ((launched [0x22, 0x34] 0x8000 none).AtOpcode (Instr.jsl [0x34]).opcode ∧
      Instr.wf ⟨true, true⟩ (.jsl [0x34]) = true ∧
      (encode (.jsl [0x34])).length = min (lengthOf refRom ⟨true, true⟩ 0x22) (2 - 0) ∧
      ∀ j b, (encode (.jsl [0x34]))[j]? = some b → (launched [0x22, 0x34] 0x8000 none).buf.read? (0 + j) = some b) :=
  ⟨⟨(entry_jsr smallParams rfl).toAtOpcode, by decide, by decide, bytes_of (by decide)⟩,
    ⟨(entry_truncated smallParams rfl).toAtOpcode, by decide, by decide, bytes_of (by decide)⟩⟩

theorem witness_FetchWordRunsNext :
    State.reset.buf.wf = true ∧ decode State.reset.ws (tableBytes 8 0x60) = .ok (.rts, [0x00, 0x00, 0x00]) ∧
      decode State.reset.ws (tableBytes 32 0x01800022) = .ok (.jsl [0x00, 0x80, 0x01], []) :=
  ⟨rfl, rfl, rfl⟩

/-- Each premise of the frame is met: a step that writes the width flags, one that writes each set, and one that ends the
pass. -/
theorem witness_InstructionFrames :
    (∃ t, exec (.sep [0x20]) (launched [0xEA] 0x8000 none) = .next t ∧ t.ws ≠ (launched [0xEA] 0x8000 none).ws) ∧
    (∃ t, exec (.jsr [0x00, 0x90]) (launched [0xEA] 0x8000 none) = .next t ∧ t.calls ≠ (launched [0xEA] 0x8000 none).calls) ∧
    (∃ t, exec (.bne [0x02]) (launched [0xEA] 0x8000 none) = .next t ∧
      t.branches ≠ (launched [0xEA] 0x8000 none).branches) ∧
    (launched [0xEA] 0x8000 none).phase = .run ∧
    ∃ t, exec .nop (launched [0xEA] 0x8000 none) = .next t ∧ t.phase = .done :=
  ⟨⟨_, rfl, fun h => absurd (congrArg WidthState.m8 h) (by decide)⟩,
    ⟨_, rfl, fun h => absurd (congrArg List.length h) (by decide)⟩,
    ⟨_, rfl, fun h => absurd (congrArg List.length h) (by decide)⟩, by decide, _, rfl, rfl⟩

/-- Another width state with the same length: always for a fixed size, and for an index immediate under the other
accumulator width. -/
theorem witness_WidthReadOnlyBySizer :
    Instr.wf ⟨true, true⟩ (.jsr [0x00, 0x90]) = true ∧
      lengthOf refRom ⟨false, false⟩ 0x20 = lengthOf refRom ⟨true, true⟩ 0x20 ∧
      Instr.wf ⟨true, true⟩ (.ldxImm [0xFF]) = true ∧
      lengthOf refRom ⟨false, true⟩ 0xA2 = lengthOf refRom ⟨true, true⟩ 0xA2 := by decide

/-- A step of a pass, and a launch. -/
theorem witness_StepKeepsInvariant :
    (launched [0x20, 0x00, 0x90] 0x8000 none).Inv linearOffset ∧
      (∃ t, step (launched [0x20, 0x00, 0x90] 0x8000 none) = .next t) ∧
      (∃ t, stepWith smallParams (launched [0x20, 0x00, 0x90] 0x8000 none) = .next t) ∧
      ∃ t, stepWith smallParams (waiting State.reset none) = .next t :=
  ⟨launched_inv _ _ _, ⟨_, rfl⟩, ⟨_, smallParams_next rfl⟩, _, smallParams_next rfl⟩

/-- A pass that goes on after a call: a descriptor is there, and the step adds another line. -/
def midPass : State :=
  { launched [0x20, 0x00, 0x90, 0xEA] 0x8000 none with
    cur := 3, lines := ["8000: jsr $9000".toList], calls := ["JSR $9000".toList] }

theorem witness_StepKeepsDescriptorsFromLines :
    smallParams.Admissible ∧ (∃ t, stepWith smallParams midPass = .next t) ∧ midPass.DescriptorsFromLines ∧
      midPass.CallsFromClass smallParams.classes ∧ midPass.calls ≠ [] := by
  refine ⟨smallParams_admissible, ⟨_, smallParams_next rfl⟩, ?_, ?_, by simp [midPass]⟩
  · intro d hd
    rcases hd with hd | hd
    · obtain rfl := List.mem_singleton.1 hd
      exact ⟨_, List.mem_singleton.2 rfl, by decide +kernel⟩
    · cases hd
  · intro d hd
    obtain rfl := List.mem_singleton.1 hd
    exact ⟨mnJsr, by decide, ⟨"$9000".toList, by decide +kernel⟩⟩

theorem witness_EveryPassEndsWithoutFault :
    smallParams.RC5 ∧ (launched [0xA9, 0x01, 0x60] 0x8000 none).Inv smallParams.mapper ∧ (launched [0xA9, 0x01, 0x60] 0x8000 none).phase = .run ∧
      (launched [0xA9, 0x01, 0x60] 0x8000 none).BufferStable :=
  ⟨smallParams_admissible.rc5, launched_inv _ _ _, by decide, stable_nil rfl⟩

/-- S6: a launch on a buffer of zero bytes. -/
def zeroRun : State := State.reset.launchWith linearOffset ⟨[], 0x200⟩ 0x8000 none

theorem witness_ZeroBytesDecodeToRawLines :
    smallParams.RC5 ∧ smallParams.rom 0x00 = none ∧ zeroRun.AtOpcode 0x00 ∧
      ∀ k, zeroRun.cur ≤ k → k < zeroRun.endOff → zeroRun.buf.read? k = some 0x00 := by
  refine ⟨smallParams_admissible.rc5, rfl, atOpcode_of (by decide) rfl (by decide) (by decide), fun k _ hk => ?_⟩
  have he : zeroRun.endOff = 0x180 := by decide
  have hl : zeroRun.buf.len = 0x200 := rfl
  exact Buffer.read?_eq_some.2 ⟨by omega, rfl⟩

theorem witness_SingleReturnPass :
    smallParams.Admissible ∧
      ({ State.reset with host := [.launch (Buffer.ofBytes [0x60]) 0x8000 none] } : State).phase ≠ .run ∧
      (∀ b rest', ([] : List HostAction) ≠ .changeBuffer b :: rest') ∧ (none : Option Nat) ≠ some 0 ∧
      (Buffer.ofBytes [0x60]).read? (smallParams.mapper 0 0x8000) = some 0x60 ∧
      smallParams.rom 0x60 = some ⟨mnRts, .imp⟩ ∧ mnRts ∈ smallParams.classes.ret :=
  ⟨smallParams_admissible, by decide, by simp, by simp, by decide, rfl, by decide⟩

theorem witness_SourceEndToEndExample : ∃ rom : Rom, (Params.mk rom refClasses linearOffset).Admissible :=
  ⟨smallRom, smallParams_admissible⟩

end Sys2Proof.Tests
end

section
/-! SUPPORT. What a step of a running pass does to the registers, and the obligations of spec/10_state.md that follow. -/

namespace Sys2Proof.Machine

open Sys2Proof

/-! ### The fields after a step of the sequencer -/

@[simp] theorem State.after_lines (s : State) (l : Text) (n : Nat) : (s.after l n).lines = s.lines ++ [l] := rfl
@[simp] theorem State.after_cur (s : State) (l : Text) (n : Nat) : (s.after l n).cur = s.cur + n := rfl
@[simp] theorem State.after_start (s : State) (l : Text) (n : Nat) : (s.after l n).start = s.start := rfl
@[simp] theorem State.after_ra (s : State) (l : Text) (n : Nat) : (s.after l n).ra = s.ra := rfl

section
variable (c : ClassSets) (mn : Text) (mode : Mode) (ops : List Byte) (s : State)

@[simp] theorem knownStep_lines :
    (knownStep c mn mode ops s).lines = s.lines ++ [knownLine s.pc mn (fmt mode ops s.pc)] := by rw [knownStep_eq]
@[simp] theorem knownStep_cur : (knownStep c mn mode ops s).cur = s.cur + instrSize mode s.ws := by rw [knownStep_eq]
@[simp] theorem knownStep_start : (knownStep c mn mode ops s).start = s.start := by rw [knownStep_eq]
@[simp] theorem knownStep_ra : (knownStep c mn mode ops s).ra = s.ra := by rw [knownStep_eq]

end

/-! ### The step with any table, during a pass -/

/-- A step of a pass that answers a next state is a step of the Decode Loop; `sequencerStep_next` says which. -/
theorem stepWith_next_run {p : Params} {s t : State} (hr : s.phase = .run) (h : stepWith p s = .next t) :
    sequencerStep p s = .next t :=
  (stepAdmitted_next_run hr (stepWith_next h).2).2

/-- The cursor moves by the length of the opcode it stands at, and the registers that fix the program counter beside it
stay (R27, R28, R71). -/
theorem stepWith_next_cursor {p : Params} {s t : State} {op : Byte} (hop : s.AtOpcode op) (h : stepWith p s = .next t) :
    t.ra = s.ra ∧ t.start = s.start ∧ t.cur = s.cur + lengthOf p.rom s.ws op := by
  obtain ⟨op', hread, hnext⟩ := sequencerStep_next (stepWith_next_run hop.running h)
  obtain rfl : op = op' := Except.ok.inj ((readByte_at hop).symm.trans hread)
  obtain ⟨hnone, rfl⟩ | ⟨e, ops, hsome, -, rfl⟩ := hnext
  · simp [lengthOf_none hnone]
  · simp [lengthOf_some hsome]

/-! ### The step with the reference fill, during a pass -/

/-- `t` is the step from `s` of some instruction of one of the six classes of Machine/ClassSteps.lean. -/
inductive State.ClassStep (s : State) : State → Prop
  | plain (mn : Text) (mode : Mode) (ops : List Byte) : ClassStep s (plainStep mn mode ops s)
  | call (mn : Text) (mode : Mode) (ops : List Byte) : ClassStep s (callStep mn mode ops s)
  | branch (mn : Text) (ops : List Byte) : ClassStep s (branchStep mn ops s)
  | ret (mn : Text) : ClassStep s (returnStep mn s)
  | status (f : Byte → WidthState → WidthState) (mn : Text) (ops : List Byte) : ClassStep s (statusStep f mn ops s)
  | raw (op : Byte) : ClassStep s (rawStep op s)

/-- Every instruction answers, in every state, the step of its class. -/
theorem exec_classStep (i : Instr) (s : State) : ∃ t, exec i s = .next t ∧ s.ClassStep t := by
  cases i with
  | bpl ops | bmi ops | bvc ops | bvs ops | bra ops | bcc ops | bcs ops | bne ops | beq ops =>
    exact ⟨_, rfl, .branch _ ops⟩
  | jsr ops | jsl ops | jmp ops | jml ops => exact ⟨_, rfl, .call _ _ ops⟩
  | rts | rtl | rti => exact ⟨_, rfl, .ret _⟩
  | sep ops | rep ops => exact ⟨_, rfl, .status _ _ ops⟩
  | ldaImm ops | andImm ops | cmpImm ops | ldxImm ops | ldyImm ops
  | staAbs ops | ldaAbs ops | ldaAbsY ops | staDpX ops | staLong ops => exact ⟨_, rfl, .plain _ _ ops⟩
  | sei | clc | xce | nop => exact ⟨_, rfl, .plain _ _ []⟩
  | byte op => exact ⟨_, rfl, .raw op⟩

/-- A step of a pass that answers a next state has fetched and decoded an instruction and run it. -/
theorem step_next_run {s t : State} (hr : s.phase = .run) (h : step s = .next t) :
    s.BufferStable ∧ ∃ bytes i rest, s.fetch refRom = .ok bytes ∧ decode s.ws bytes = .ok (i, rest) ∧ exec i s = .next t := by
  have hs : s.BufferStable := fun b rest hb => by simp [step, hr, hb] at h
  refine ⟨hs, ?_⟩
  rw [step_run hr hs] at h
  cases hf : s.fetch refRom with
  | error f => simp [decodeStep, hf] at h
  | ok bytes =>
    cases hd : decode s.ws bytes with
    | error e => cases e; simp [decodeStep, hf, hd] at h
    | ok r => exact ⟨bytes, r.1, r.2, rfl, hd, (decodeStep_of hf hd).symm.trans h⟩

/-- The window of `t` and the inputs it was launched with are those of `s` (R15, R20, R21, R22, R36). -/
structure State.SameWindow (s t : State) : Prop where
  start : t.start = s.start
  endOff : t.endOff = s.endOff
  ra : t.ra = s.ra
  maxBytes : t.maxBytes = s.maxBytes
  buf : t.buf = s.buf

/-- No class of instruction writes the window or a launch input. -/
theorem State.ClassStep.sameWindow {s t : State} (h : s.ClassStep t) : s.SameWindow t := by
  cases h <;> constructor <;> rfl

theorem step_sameWindow {s t : State} (hr : s.phase = .run) (h : step s = .next t) : s.SameWindow t := by
  obtain ⟨-, -, i, -, -, -, hexec⟩ := step_next_run hr h
  obtain ⟨t', ht', hclass⟩ := exec_classStep i s
  obtain rfl : t' = t := Host.Outcome.next.inj (ht'.symm.trans hexec)
  exact hclass.sameWindow

/-! ### The obligations -/

/-- Settles O31: the raw-byte step and the step of a table entry each append the line they render. -/
theorem oneLinePerStep : Obligations.OneLinePerStep := by
  intro p s t hr h
  obtain ⟨op, -, ⟨-, rfl⟩ | ⟨e, ops, -, -, rfl⟩⟩ := sequencerStep_next (stepWith_next_run hr h)
  · exact ⟨_, State.after_lines s _ 1⟩
  · exact ⟨_, knownStep_lines p.classes e.mnemonic e.mode ops s⟩

/-- Settles O33: the program counter moves with the cursor, here by 1, in 16-bit arithmetic. -/
theorem programCounterWraps : Obligations.ProgramCounterWraps := by
  intro p s t op hop hlen hpc h
  obtain ⟨hra, hstart, hcur⟩ := stepWith_next_cursor hop h
  rw [hlen] at hcur
  refine ⟨?_, hcur⟩
  calc t.pc = s.pc + BitVec.ofNat 16 1 := State.pc_of_shift hra hstart hcur
    _ = 0x0000 := by rw [hpc]; decide

/-- Settles O35: no step of a pass writes the window or a launch input, and the invariant maps `START` from `RA`. -/
theorem windowConstantDuringPass : Obligations.WindowConstantDuringPass := by
  intro s t hinv hr h
  obtain ⟨hstart, hend, hra, hmax, hbuf⟩ := step_sameWindow hr h
  have hmapped : s.start = linearOffset 0 s.ra := hinv.startMapped (by simp [hr])
  refine ⟨?_, hstart, hend, hra, hmax, by rw [hbuf], fun k => by rw [hbuf]⟩
  rw [hstart, hra, hmapped]

end Sys2Proof.Machine
end

section
/-! SUPPORT. What a step of a running pass reads of the buffer, and the obligations of spec/20_memory.md. -/

namespace Sys2Proof.Machine

open Sys2Proof

/-! ### A pass with another buffer -/

/-- `s` with the buffer `b` in place of its own: every register and every other launch input is kept. -/
def State.withBuffer (s : State) (b : Buffer) : State := { s with buf := b }

/-- The same answer of a step, with the buffer `b` in the next state. -/
def outcomeWithBuffer (b : Buffer) : Host.Outcome State Fault Refusal → Host.Outcome State Fault Refusal
  | .next t => .next (t.withBuffer b)
  | .fault f => .fault f
  | .refused r => .refused r

/-- `b` holds, at every offset of the window of `s`, what the buffer of `s` holds there. -/
def State.AgreesInWindow (s : State) (b : Buffer) : Prop :=
  ∀ k, s.start ≤ k → k < s.endOff → b.read? k = s.buf.read? k

section
variable (s : State) (b : Buffer)

@[simp] theorem State.withBuffer_ws : (s.withBuffer b).ws = s.ws := rfl
@[simp] theorem State.withBuffer_cur : (s.withBuffer b).cur = s.cur := rfl
@[simp] theorem State.withBuffer_phase : (s.withBuffer b).phase = s.phase := rfl
@[simp] theorem State.withBuffer_host : (s.withBuffer b).host = s.host := rfl
@[simp] theorem State.withBuffer_pc : (s.withBuffer b).pc = s.pc := rfl
@[simp] theorem State.withBuffer_navail (n : Nat) : (s.withBuffer b).navail n = s.navail n := rfl

/-- The raw-byte step commutes with a change of the buffer. -/
theorem State.after_withBuffer (l : Text) (n : Nat) : (s.withBuffer b).after l n = (s.after l n).withBuffer b := rfl

/-- The step of a table entry, once the operand bytes are captured, commutes with a change of the buffer. -/
theorem knownStep_withBuffer (c : ClassSets) (mn : Text) (mode : Mode) (ops : List Byte) :
    knownStep c mn mode ops (s.withBuffer b) = (knownStep c mn mode ops s).withBuffer b := by
  rw [knownStep_eq, knownStep_eq]
  rfl

end

/-! ### Reads stay inside the window -/

section
variable {s : State} {b : Buffer} (h : s.AgreesInWindow b)
include h

/-- A read looks at the buffer only after it has checked that the offset is inside the window (R37). -/
theorem State.readByte_withBuffer (k : Nat) : (s.withBuffer b).readByte k = s.readByte k := by
  by_cases hk : s.start ≤ k ∧ k < s.endOff
  · simp only [State.readByte, State.withBuffer, if_pos hk, h k hk.1 hk.2]
  · exact (if_neg hk).trans (if_neg hk).symm

theorem State.capture_withBuffer (k n : Nat) : (s.withBuffer b).capture k n = s.capture k n := by
  induction n generalizing k with
  | zero => rfl
  | succ n ih => simp only [State.capture, State.readByte_withBuffer h, ih]

/-- The opcode and the operand bytes are all a step of the Decode Loop reads, so it answers the same. -/
theorem sequencerStep_withBuffer (p : Params) :
    sequencerStep p (s.withBuffer b) = outcomeWithBuffer b (sequencerStep p s) := by
  have hread' := State.readByte_withBuffer h s.cur
  cases hread : s.readByte s.cur with
  | error f => simp [sequencerStep, hread, hread', outcomeWithBuffer]
  | ok op =>
    rw [hread] at hread'
    cases hrom : p.rom op with
    | none =>
      rw [sequencerStep_unknown hread hrom, sequencerStep_unknown hread' hrom, State.withBuffer_pc, State.after_withBuffer,
        outcomeWithBuffer]
    | some e =>
      cases hcap : s.capture (s.cur + 1) (s.navail (instrSize e.mode s.ws)) with
      | error f => simp [sequencerStep, hread, hread', hrom, hcap, State.capture_withBuffer h, outcomeWithBuffer]
      | ok ops =>
        simp [sequencerStep, hread, hread', hrom, hcap, State.capture_withBuffer h, knownStep_withBuffer,
          outcomeWithBuffer]

/-- During a pass the launcher's queue alone decides whether the Decode Loop steps, and it is the same queue. -/
theorem stepAdmitted_withBuffer (p : Params) (hr : s.phase = .run) :
    stepAdmitted p (s.withBuffer b) = outcomeWithBuffer b (stepAdmitted p s) := by
  by_cases hs : s.BufferStable
  · rw [stepAdmitted_run hr hs, stepAdmitted_run (s := s.withBuffer b) hr hs, sequencerStep_withBuffer h]
  · obtain ⟨b', rest, hhost⟩ : ∃ b' rest, s.host = .changeBuffer b' :: rest := by
      simpa [State.BufferStable] using hs
    simp [stepAdmitted, hr, hhost, outcomeWithBuffer]

theorem stepWith_withBuffer (p : Params) (hr : s.phase = .run) :
    stepWith p (s.withBuffer b) = outcomeWithBuffer b (stepWith p s) := by
  by_cases h5 : rc5Holds p
  · simp only [stepWith, if_pos h5, stepAdmitted_withBuffer h p hr]
  · simp only [stepWith, if_neg h5, outcomeWithBuffer]

end

/-- During a pass the window ends inside the buffer (R21, R37). -/
theorem State.Inv.endOff_le_len {m : Byte → Addr → Nat} {s : State} (h : s.Inv m) (hr : s.phase = .run) :
    s.endOff ≤ s.buf.len := by
  rw [h.windowEnd hr]
  exact Nat.min_le_left _ _

/-! ### The obligations -/

/-- Settles O34: `END` is a minimum with `BUF_LEN`, and every read checks the window first, so a step commutes with a
change of the buffer outside the window. -/
theorem readsOnlyInsideWindow : Obligations.ReadsOnlyInsideWindow := by
  refine ⟨fun p s hinv hr => hinv.endOff_le_len hr, fun p s b hr hagree => ?_⟩
  refine (stepWith_withBuffer hagree p hr).trans ?_
  cases stepWith p s <;> rfl

/-- Settles O6: masking the address commutes with reading it as a number. -/
theorem addressMapperFormula : Obligations.AddressMapperFormula := by
  intro bank addr
  have hmask : (addr &&& 0x7FFF#16).toNat = addr.toNat &&& 0x7FFF := BitVec.toNat_and addr 0x7FFF#16
  rw [linearOffset, hmask, bankSize]

end Sys2Proof.Machine
end

section
/-! SUPPORT. The rows of the Operand Sizer that read a width flag, and the obligation of spec/30_encoding.md about it. -/

namespace Sys2Proof.Machine

open Sys2Proof

/-! ### The width-dependent modes -/

theorem instrSize_immM (ws : WidthState) : instrSize .immM ws = if ws.m8 = true then 2 else 3 := rfl

theorem instrSize_immX (ws : WidthState) : instrSize .immX ws = if ws.x8 = true then 2 else 3 := rfl

/-! ### The obligations -/

/-- Settles O5: the two width-dependent rows of R64 by their equations, every other row by a constant equation of the
sizer. -/
theorem operandSizerTable : Obligations.OperandSizerTable := fun ws =>
  ⟨rfl, rfl, instrSize_immM ws, instrSize_immX ws, rfl, rfl, rfl, rfl, rfl⟩

end Sys2Proof.Machine
end

section
/-! SUPPORT. The step of the Decode Loop at an opcode, and the obligation of spec/41_decode_loop.md about an unknown one. -/

namespace Sys2Proof.Machine

open Sys2Proof

/-! ### The step at an opcode -/

/-- With an admitted table the step at an opcode is the Decode Loop's (R102, R104). -/
theorem stepWith_atOpcode {p : Params} {s : State} {op : Byte} (h5 : p.RC5) (hop : s.AtOpcode op) :
    stepWith p s = sequencerStep p s :=
  (stepWith_of_rc5 h5 s).trans (stepAdmitted_run hop.running hop.stable)

/-- The raw-byte line begins with the prefix of every line of the step (R108, R109). -/
theorem rawLine_eq_pcPrefix (s : State) (op : Byte) :
    rawLine s.pc op = s.pcPrefix ++ ['.', 'b', 'y', 't', 'e', ' ', '$'] ++ hexN 2 op.toNat := by
  simp only [rawLine, State.pcPrefix, List.append_assoc, List.cons_append, List.nil_append]

/-! ### The obligations -/

/-- Settles O24: the step is the Decode Loop's, which at an unknown opcode is `State.after` with the raw-byte line. -/
theorem unknownOpcodeEmitsRawByte : Obligations.UnknownOpcodeEmitsRawByte := by
  intro p s op h5 hop hnone
  rw [stepWith_atOpcode h5 hop, sequencerStep_unknown (readByte_at hop) hnone, rawLine_eq_pcPrefix]

end Sys2Proof.Machine
end

section
/-! SUPPORT. The step of a return entry, and the obligation of spec/43_flow_control.md about it. -/

namespace Sys2Proof.Machine

open Sys2Proof

/-! ### The step at a table entry -/

/-- With an admitted table the step at an entry is the step of that entry with the captured operand bytes (R116). -/
theorem stepWith_atEntry {p : Params} {s : State} {op : Byte} {e : Entry} {ops : List Byte} (h5 : p.RC5)
    (h : s.AtEntry p op e ops) : stepWith p s = .next (knownStep p.classes e.mnemonic e.mode ops s) :=
  (stepWith_atOpcode h5 h.toAtOpcode).trans (sequencerStep_known h)

/-- A mnemonic that is a return and nothing else, in any mode that is not a relative branch, only writes the line, the
cursor and the phase; `knownStep_return` is the case of no operand. -/
theorem knownStep_return_anyMode {c : ClassSets} {mn : Text} {mode : Mode} {ops : List Byte} {s : State}
    (hcall : mn ∉ c.call) (hret : mn ∈ c.ret) (hsep : mn ∉ c.sep) (hrep : mn ∉ c.rep) (hrel : mode ≠ .rel) :
    knownStep c mn mode ops s =
      { s.after (knownLine s.pc mn (fmt mode ops s.pc)) (instrSize mode s.ws) with phase := .done } := by
  rw [knownStep_eq]
  simp only [State.after, if_neg hcall, if_neg hrel, if_neg hsep, if_neg hrep, if_pos (Or.inl hret)]

/-! ### The obligations -/

/-- Settles O27: the class sets are disjoint (R67), so a return is in no other class, and RC5 keeps it from being a
relative branch (R63). -/
theorem returnClassStep : Obligations.ReturnClassStep := by
  intro p s op e ops hp hat hret
  obtain ⟨-, hdisjoint, -, -⟩ := Params.Admissible.classes_disjoint hp e.mnemonic
  obtain ⟨hcall, hsep, hrep⟩ := hdisjoint hret
  have hrel : e.mode ≠ .rel := (hp.rc5 op e hat.entry).2 (.inr (.inl hret))
  rw [stepWith_atEntry hp.rc5 hat, knownStep_return_anyMode hcall hret hsep hrep hrel]

end Sys2Proof.Machine
end

section
/-! SUPPORT. The step of an entry in no class, and the obligation of spec/44_data_and_implicit.md about it. -/

namespace Sys2Proof.Machine

open Sys2Proof

/-- A mnemonic of class `NONE` is a member of no class set (R66, R67). -/
theorem classOf_eq_none_iff {c : ClassSets} {mn : Text} :
    classOf c mn = .none ↔ mn ∉ c.call ∧ mn ∉ c.ret ∧ mn ∉ c.sep ∧ mn ∉ c.rep := by
  unfold classOf
  split_ifs <;> simp [*]

/-- The step shared by the instructions of class `NONE` writes the line, the cursor and the phase only. -/
theorem plainStep_eq_after (mn : Text) (mode : Mode) (ops : List Byte) (s : State) :
    plainStep mn mode ops s = s.after (knownLine s.pc mn (fmt mode ops s.pc)) (instrSize mode s.ws) :=
  plainStep_eq mn mode ops s

/-- The line of a known opcode begins with the prefix of every line of the step (R108, R109). -/
theorem knownLine_eq_pcPrefix (s : State) (mn text : Text) :
    knownLine s.pc mn text = trim (s.pcPrefix ++ mn ++ [' '] ++ text) := rfl

/-! ### The obligations -/

/-- Settles O28: an entry of class `NONE` is in no class set, so with a mode that is not `REL` its step is the plain one. -/
theorem plainClassStep : Obligations.PlainClassStep := by
  intro p s op e ops h5 hat hnone hrel
  obtain ⟨hcall, hret, hsep, hrep⟩ := classOf_eq_none_iff.1 hnone
  rw [stepWith_atEntry h5 hat, knownStep_plain hcall hret hsep hrep hrel, plainStep_eq_after, knownLine_eq_pcPrefix]

end Sys2Proof.Machine
end

section
/-! SUPPORT. Decoding and encoding are inverse of each other, the reference fill, and the obligations of
spec/30_encoding.md. -/

namespace Sys2Proof.Machine

open Sys2Proof

/-! ### Decoding -/

theorem decode_cons (ws : WidthState) (op : Byte) (bs : List Byte) :
    decode ws (op :: bs) =
      .ok (ofOpcode op (bs.take (lengthOf refRom ws op - 1)), bs.drop (lengthOf refRom ws op - 1)) := rfl

/-- Bytes that are no more than the opcode's length asks for are all operand bytes, and none is left. -/
theorem decode_cons_of_length_lt {ws : WidthState} {op : Byte} {ops : List Byte} (h : ops.length < lengthOf refRom ws op) :
    decode ws (op :: ops) = .ok (ofOpcode op ops, []) := by
  have hle : ops.length ≤ lengthOf refRom ws op - 1 := by omega
  rw [decode_cons, List.take_of_length_le hle, List.drop_of_length_le hle]

/-- A complete instruction has as many operand bytes as the decoder takes. -/
theorem Instr.ops_length_of_complete {ws : WidthState} {i : Instr} (h : i.complete ws = true) :
    i.ops.length = lengthOf refRom ws i.opcode - 1 := by
  simp only [Instr.complete, Bool.and_eq_true, beq_iff_eq] at h
  omega

/-! ### The reference fill -/

/-- An entry of the reference fill is one of the rows of R68. -/
theorem refRom_eq_some {op : Byte} {e : Entry} (h : refRom op = some e) :
    ∃ r ∈ refRows, e = ⟨r.mnemonic, r.mode⟩ := by
  obtain ⟨r, hfind, hr⟩ := Option.map_eq_some_iff.1 h
  exact ⟨r, List.mem_of_find?_eq_some hfind, hr.symm⟩

/-- The status rows have an operand byte and a width-independent mode (RC4). -/
theorem refRows_status_mode : ∀ r ∈ refRows, r.mnemonic ∈ refClasses.sep ∨ r.mnemonic ∈ refClasses.rep →
    r.mode.widthDependent = false ∧ r.mode ≠ .imp := by decide

/-- The mnemonics of the rows are non-empty lowercase words (RC6). -/
theorem refRows_mnemonic_lower : ∀ r ∈ refRows, r.mnemonic ≠ [] ∧ r.mnemonic.all isLower = true := by decide

/-- The number of class sets a mnemonic is in. -/
def classSetCount (c : ClassSets) (mn : Text) : Nat :=
  (if mn ∈ c.call then 1 else 0) + (if mn ∈ c.ret then 1 else 0) + (if mn ∈ c.sep then 1 else 0) +
    (if mn ∈ c.rep then 1 else 0)

/-- Each mnemonic of the class sets of R66 is in one of them only. -/
theorem refClasses_classSetCount_members :
    ∀ mn ∈ refClasses.call ++ refClasses.ret ++ refClasses.sep ++ refClasses.rep, classSetCount refClasses mn ≤ 1 := by
  decide

theorem refClasses_classSetCount_le (mn : Text) : classSetCount refClasses mn ≤ 1 := by
  by_cases h : mn ∈ refClasses.call ++ refClasses.ret ++ refClasses.sep ++ refClasses.rep
  · exact refClasses_classSetCount_members mn h
  · simp only [List.mem_append, not_or] at h
    obtain ⟨⟨⟨hcall, hret⟩, hsep⟩, hrep⟩ := h
    simp [classSetCount, hcall, hret, hsep, hrep]

/-! ### Sizes -/

/-- A mode that depends on no width flag has one size (R65). -/
theorem instrSize_of_not_widthDependent {mode : Mode} (h : mode.widthDependent = false) (ws ws' : WidthState) :
    instrSize mode ws = instrSize mode ws' := by
  cases mode with
  | immM | immX => cases h
  | imp | imm8 | abs | absY | dpX | long | rel => rfl

/-! ### The obligations -/

/-- Settles O1: the decoder takes exactly the operand bytes, because there is nothing after them or because there are as
many as the length asks for, and the opcode with its operand bytes gives back a well-formed instruction. -/
theorem decodeEncodeRoundTrip : Obligations.DecodeEncodeRoundTrip := by
  intro ws i rest hwf hrest
  have hlt := Instr.ops_length_lt hwf
  have hsplit : (i.ops ++ rest).take (lengthOf refRom ws i.opcode - 1) = i.ops ∧
      (i.ops ++ rest).drop (lengthOf refRom ws i.opcode - 1) = rest := by
    obtain rfl | hcomplete := hrest
    · have hle : i.ops.length ≤ lengthOf refRom ws i.opcode - 1 := by omega
      rw [List.append_nil]
      exact ⟨List.take_of_length_le hle, List.drop_of_length_le hle⟩
    · have hlen := Instr.ops_length_of_complete hcomplete
      exact ⟨List.take_left' hlen, List.drop_left' hlen⟩
  rw [encode, List.cons_append, decode_cons, hsplit.1, hsplit.2, ofOpcode_self hwf]

/-- Settles O2: the decoder splits the bytes after the opcode, and the instruction of an opcode keeps the opcode and the
operand bytes it was given. -/
theorem encodeDecodeRoundTrip : Obligations.EncodeDecodeRoundTrip := by
  refine ⟨fun ws bs i rest h => ?_, fun ws bs hbs => ?_⟩
  · cases bs with
    | nil => cases h
    | cons op bs =>
      obtain ⟨rfl, rfl⟩ := Prod.mk.inj (Except.ok.inj h)
      have hlt : (bs.take (lengthOf refRom ws op - 1)).length < lengthOf refRom ws op := by
        have := lengthOf_pos refRom ws op
        rw [List.length_take]
        omega
      obtain ⟨hops, hopcode, hwf⟩ := ofOpcode_spec op _ ws hlt
      refine ⟨hwf, ?_⟩
      rw [encode, hops, hopcode, List.cons_append, List.take_append_drop]
  · obtain ⟨op, bs, rfl⟩ := List.exists_cons_of_ne_nil hbs
    exact ⟨_, _, decode_cons ws op bs⟩

/-- Settles O3: the decoder run on each of the twelve words. -/
theorem sampleBytesDecode : Obligations.SampleBytesDecode :=
  ⟨rfl, rfl, rfl, rfl, rfl, rfl, rfl, rfl, rfl, rfl, rfl, rfl⟩

/-- Settles O4: RC4 and RC6 row by row of R68, RC5 by its check, R67 by the members of the class sets. -/
theorem referenceTableAdmissible : Obligations.ReferenceTableAdmissible where
  rc1 := rfl
  rc2 := rfl
  rc2ret := by decide
  rc3 := rfl
  rc4 := by
    intro op e h hclass
    obtain ⟨r, hr, rfl⟩ := refRom_eq_some h
    exact refRows_status_mode r hr hclass
  rc5 := refParams_rc5
  rc6 := by
    intro op e h
    obtain ⟨r, hr, rfl⟩ := refRom_eq_some h
    exact refRows_mnemonic_lower r hr
  disjoint := refClasses_classSetCount_le

/-- Settles O14: the sizer's two width-dependent rows by their values, every other row because it reads no flag. -/
theorem widthToggleChangesSizeByOne : Obligations.WidthToggleChangesSizeByOne :=
  ⟨fun _ => rfl, fun _ => rfl, fun _ _ _ => rfl, fun _ _ _ => rfl,
    fun _ ws ws' h => instrSize_of_not_widthDependent h ws ws'⟩

end Sys2Proof.Machine
end

section
/-! SUPPORT. The dispatch over instructions is the sequencer with the reference fill: what the step of the machine is, and
the obligations about it. -/

namespace Sys2Proof.Machine

open Sys2Proof

/-! ### The dispatch -/

/-- The Opcode Table holds the entry an instruction stands for. -/
theorem refRom_opcode {ws : WidthState} {i : Instr} (h : i.wf ws = true) : refRom i.opcode = Laws.entryOf i := by
  cases i with
  | byte op => exact Laws.OpcodeEntry.byte op ws h
  | _ => rfl

/-- An instruction that stands for a table entry is executed as the step of that entry with its operand bytes. -/
theorem exec_of_entryOf {i : Instr} {e : Entry} (h : Laws.entryOf i = some e) (s : State) :
    exec i s = .next (knownStep refClasses e.mnemonic e.mode i.ops s) := by
  cases i with
  | bpl ops | bmi ops | bvc ops | bvs ops | bra ops | bcc ops | bcs ops | bne ops | beq ops =>
    obtain rfl := Option.some.inj h
    exact congrArg Host.Outcome.next (knownStep_branch (by decide) (by decide) (by decide) (by decide)).symm
  | jsr ops | jsl ops | jmp ops | jml ops =>
    obtain rfl := Option.some.inj h
    exact congrArg Host.Outcome.next
      (knownStep_call (by decide) (by decide) (by decide) (by decide) (by decide)).symm
  | rts | rtl | rti =>
    obtain rfl := Option.some.inj h
    exact congrArg Host.Outcome.next (knownStep_return (by decide) (by decide) (by decide) (by decide)).symm
  | sep ops =>
    obtain rfl := Option.some.inj h
    exact congrArg Host.Outcome.next (knownStep_set (by decide) (by decide) (by decide) (by decide)).symm
  | rep ops =>
    obtain rfl := Option.some.inj h
    exact congrArg Host.Outcome.next (knownStep_reset (by decide) (by decide) (by decide) (by decide)).symm
  | ldaImm ops | andImm ops | cmpImm ops | ldxImm ops | ldyImm ops
  | staAbs ops | ldaAbs ops | ldaAbsY ops | staDpX ops | staLong ops | sei | clc | xce | nop =>
    obtain rfl := Option.some.inj h
    exact congrArg Host.Outcome.next
      (knownStep_plain (by decide) (by decide) (by decide) (by decide) (by decide)).symm
  | byte op => cases h

/-- Only a raw byte stands for no table entry. -/
theorem eq_byte_of_entryOf_none {i : Instr} (h : Laws.entryOf i = none) : i = .byte i.opcode := by
  cases i with
  | byte op => rfl
  | _ => cases h

/-- A raw byte is executed as the step of an unknown opcode. -/
theorem exec_byte (op : Byte) (s : State) : exec (.byte op) s = .next (s.after (rawLine s.pc op) 1) :=
  congrArg Host.Outcome.next (rawStep_eq op s)

/-! ### The fetch -/

/-- The bytes at the cursor, as many as the length of the opcode and the window allow, are the bytes fetched. -/
theorem fetch_of_atOpcode {s : State} {rom : Rom} {op : Byte} {ops : List Byte} (hop : s.AtOpcode op)
    (hlen : ops.length = s.navail (lengthOf rom s.ws op))
    (hbytes : ∀ j b, ops[j]? = some b → s.buf.read? (s.cur + 1 + j) = some b) : s.fetch rom = .ok (op :: ops) := by
  refine State.fetch_eq_ok.2 ⟨op, ops, rfl, readByte_at hop, State.capture_eq_ok.2 ⟨hlen, fun j b hj => ?_⟩⟩
  refine State.readByte_eq_ok.2 ⟨?_, hbytes j b hj⟩
  have hj' : j < ops.length := (List.getElem?_eq_some_iff.1 hj).1
  have hinside := hop.inside
  unfold State.navail at hlen
  omega

/-- A step captures fewer operand bytes than its length. -/
theorem State.navail_lt (s : State) {n : Nat} (h : 1 ≤ n) : s.navail n < n := by
  unfold State.navail
  omega

/-! ### The machine's step is the sequencer's -/

/-- Once the opcode and its operand bytes are captured, decoding and executing them is the sequencer's step. -/
theorem decodeStep_eq_of_captured {s : State} {op : Byte} {ops : List Byte} (hop : s.readByte s.cur = .ok op)
    (hcap : s.capture (s.cur + 1) (s.navail (lengthOf refRom s.ws op)) = .ok ops) :
    decodeStep s = sequencerStep refParams s := by
  have hlt : ops.length < lengthOf refRom s.ws op := by
    rw [(State.capture_eq_ok.1 hcap).1]
    exact s.navail_lt (lengthOf_pos refRom s.ws op)
  obtain ⟨hops, hopcode, hwf⟩ := ofOpcode_spec op ops s.ws hlt
  have hexec : decodeStep s = exec (ofOpcode op ops) s :=
    decodeStep_of (State.fetch_eq_ok.2 ⟨op, ops, rfl, hop, hcap⟩) (decode_cons_of_length_lt hlt)
  have hentry : Laws.entryOf (ofOpcode op ops) = refRom op := by rw [← refRom_opcode hwf, hopcode]
  cases he : refRom op with
  | none =>
    have hbyte := eq_byte_of_entryOf_none (hentry.trans he)
    rw [hopcode] at hbyte
    rw [hexec, hbyte, exec_byte, sequencerStep_unknown hop he]
  | some e =>
    rw [lengthOf_some he] at hcap
    rw [hexec, exec_of_entryOf (hentry.trans he), hops]
    simp only [sequencerStep, hop, refParams, he, hcap]

/-- The machine's step of the Decode Loop is the sequencer's with the reference fill, faults included. -/
theorem decodeStep_eq_sequencerStep (s : State) : decodeStep s = sequencerStep refParams s := by
  cases hop : s.readByte s.cur with
  | error f => simp only [decodeStep, State.fetch, sequencerStep, hop]
  | ok op =>
    cases hcap : s.capture (s.cur + 1) (s.navail (lengthOf refRom s.ws op)) with
    | ok ops => exact decodeStep_eq_of_captured hop hcap
    | error f =>
      cases he : refRom op with
      | none =>
        have hzero : s.navail 1 = 0 := Nat.lt_one_iff.1 (s.navail_lt (Nat.le_refl 1))
        rw [lengthOf_none he, hzero] at hcap
        cases hcap
      | some e =>
        have hcap' := hcap
        rw [lengthOf_some he] at hcap'
        simp only [decodeStep, State.fetch, sequencerStep, refParams, hop, hcap, he, hcap']

/-! ### A change of the buffer during a pass -/

theorem State.exists_changeBuffer {s : State} (h : ¬ s.BufferStable) : ∃ buf rest, s.host = .changeBuffer buf :: rest := by
  simpa [State.BufferStable] using h

theorem stepAdmitted_changeBuffer {p : Params} {s : State} {buf : Buffer} {rest : List HostAction} (hr : s.phase = .run)
    (h : s.host = .changeBuffer buf :: rest) : stepAdmitted p s = .refused .bufferChangedDuringPass := by
  simp only [stepAdmitted, hr, h]

theorem step_changeBuffer {s : State} {buf : Buffer} {rest : List HostAction} (hr : s.phase = .run)
    (h : s.host = .changeBuffer buf :: rest) : step s = .refused .bufferChangedDuringPass := by
  simp only [step, hr, h]

/-! ### The obligations -/

/-- Settles O37: during a pass both steps refuse the same change of the buffer and otherwise step the Decode Loop, and
outside a pass the launcher acts, with the same mapper. -/
theorem stepRefinesSequencer : Obligations.StepRefinesSequencer := by
  intro s
  rw [stepWith_of_rc5 refParams_rc5]
  by_cases hr : s.phase = .run
  · by_cases hs : s.BufferStable
    · rw [step_run hr hs, stepAdmitted_run hr hs, decodeStep_eq_sequencerStep]
    · obtain ⟨buf, rest, hhost⟩ := State.exists_changeBuffer hs
      rw [step_changeBuffer hr hhost, stepAdmitted_changeBuffer hr hhost]
  · exact (step_launcher hr).trans (stepAdmitted_launcher (p := refParams) hr).symm

/-- Settles O36: the bytes of the instruction are the bytes the fetch reads, and they decode to the instruction. -/
theorem stepRunsDecodedInstruction : Obligations.StepRunsDecodedInstruction := by
  intro s i hop hwf hlen hbytes
  have hcount : i.ops.length = s.navail (lengthOf refRom s.ws i.opcode) := by
    simp only [encode, List.length_cons] at hlen
    unfold State.navail
    omega
  have hfetch : s.fetch refRom = .ok (encode i) := by
    refine fetch_of_atOpcode hop hcount fun j b hj => ?_
    rw [Nat.add_assoc, Nat.add_comm 1 j]
    exact hbytes (j + 1) b hj
  have hdecode := decode_cons_of_length_lt (Instr.ops_length_lt hwf)
  rw [ofOpcode_self hwf] at hdecode
  rw [step_run hop.running hop.stable, decodeStep_of hfetch hdecode]

/-! ### A word stored at the cursor -/

/-- The opcode byte of a table word. -/
def tableOpcode (nbits w : Nat) : Byte := BitVec.ofNat 8 (w % 2 ^ nbits)

/-- The three bytes of a table word after its opcode. -/
def tableOperands (nbits w : Nat) : List Byte :=
  [BitVec.ofNat 8 (w % 2 ^ nbits / 0x100), BitVec.ofNat 8 (w % 2 ^ nbits / 0x10000),
    BitVec.ofNat 8 (w % 2 ^ nbits / 0x1000000)]

theorem tableBytes_eq (nbits w : Nat) : tableBytes nbits w = tableOpcode nbits w :: tableOperands nbits w := rfl

theorem tableOperands_take_length (nbits w : Nat) {n : Nat} (hn : n ≤ 4) :
    ((tableOperands nbits w).take (n - 1)).length = n - 1 := by
  have hthree : (tableOperands nbits w).length = 3 := rfl
  rw [List.length_take, hthree]
  omega

@[simp] theorem State.withFetchWord_ws (s : State) (nbits w : Nat) : (s.withFetchWord nbits w).ws = s.ws := rfl

/-- The bytes of the stored word stand at the cursor. -/
theorem withFetchWord_read {s : State} {nbits w j : Nat} (hb : s.buf.wf = true) (hj : j < 4) :
    (s.withFetchWord nbits w).buf.read? (s.cur + j) = (tableBytes nbits w)[j]? :=
  Buffer.read?_putAll s.cur j (tableBytes nbits w) hb hj

theorem withFetchWord_bufferStable (s : State) (nbits w : Nat) : (s.withFetchWord nbits w).BufferStable := by
  intro b rest h
  have hhead := List.head?_dropWhile_not HostAction.changesBuffer s.host
  have hhost : s.host.dropWhile HostAction.changesBuffer = .changeBuffer b :: rest := h
  rw [hhost] at hhead
  simp [HostAction.changesBuffer] at hhead

theorem withFetchWord_atOpcode {s : State} {nbits w : Nat} (hb : s.buf.wf = true) :
    (s.withFetchWord nbits w).AtOpcode (tableOpcode nbits w) where
  running := rfl
  stable := withFetchWord_bufferStable s nbits w
  inside := by
    show min s.start s.cur ≤ s.cur ∧ s.cur < max s.endOff (s.cur + maxLen)
    unfold maxLen
    omega
  opcode := withFetchWord_read hb (j := 0) (by omega)

/-- The window of the stored word clips no operand byte. -/
theorem withFetchWord_navail (s : State) (nbits w : Nat) {n : Nat} (hn : n ≤ 4) :
    (s.withFetchWord nbits w).navail n = n - 1 := by
  show min (n - 1) (max s.endOff (s.cur + maxLen) - s.cur - 1) = n - 1
  unfold maxLen
  omega

/-- The fetch reads the opcode of the stored word and as many of its bytes as the length asks for. -/
theorem withFetchWord_fetch {s : State} {nbits w : Nat} (hb : s.buf.wf = true) :
    (s.withFetchWord nbits w).fetch refRom = .ok (tableOpcode nbits w ::
      (tableOperands nbits w).take (lengthOf refRom s.ws (tableOpcode nbits w) - 1)) := by
  have hle := lengthOf_le refRom s.ws (tableOpcode nbits w)
  have hcount := tableOperands_take_length nbits w hle
  refine fetch_of_atOpcode (withFetchWord_atOpcode hb) ?_ fun j b hj => ?_
  · rw [State.withFetchWord_ws, withFetchWord_navail s nbits w hle, hcount]
  · have hlt : j < lengthOf refRom s.ws (tableOpcode nbits w) - 1 := hcount ▸ (List.getElem?_eq_some_iff.1 hj).1
    rw [List.getElem?_take_of_lt hlt] at hj
    show (s.withFetchWord nbits w).buf.read? (s.cur + 1 + j) = some b
    rw [Nat.add_assoc, withFetchWord_read hb (by omega), Nat.add_comm 1 j]
    exact hj

/-- Settles O38: the bytes the fetch reads of the word are those the decoder takes. -/
theorem fetchWordRunsNext : Obligations.FetchWordRunsNext := by
  intro s nbits w i rest hb hdecode
  have hpos := lengthOf_pos refRom s.ws (tableOpcode nbits w)
  have hcount := tableOperands_take_length nbits w (lengthOf_le refRom s.ws (tableOpcode nbits w))
  rw [tableBytes_eq, decode_cons] at hdecode
  obtain ⟨rfl, -⟩ := Prod.mk.inj (Except.ok.inj hdecode)
  have hop := withFetchWord_atOpcode (nbits := nbits) (w := w) hb
  rw [step_run hop.running hop.stable]
  exact decodeStep_of (withFetchWord_fetch hb) (decode_cons_of_length_lt (by rw [State.withFetchWord_ws]; omega))

end Sys2Proof.Machine
end

section
/-! SUPPORT. What every step keeps and that every pass ends: one description of a step of a running pass, and the
obligations that follow from it. -/

namespace Sys2Proof.Machine

open Sys2Proof

/-! ### What a step of a running pass does to the registers -/

/-- `d` is a set of strings that a step may leave where there was `t`: the same, or with one string added. -/
def TextSet.Grown (t d : TextSet) : Prop := d = t ∨ ∃ x, d = TextSet.insert x t

theorem TextSet.Grown.sorted {t d : TextSet} (h : t.Grown d) (ht : t.Sorted) : d.Sorted := by
  obtain rfl | ⟨x, rfl⟩ := h
  · exact ht
  · exact TextSet.insert_pairwise ht

/-- `t` is reached from `s` by appending one line and moving the cursor by `n` inside the same window, with at most one
string added to each set; the pass goes on only inside the window. -/
structure State.Advanced (s t : State) (n : Nat) : Prop where
  window : s.SameWindow t
  host : t.host = s.host
  cur : t.cur = s.cur + n
  lines : ∃ line, t.lines = s.lines ++ [line]
  calls : s.calls.Grown t.calls
  branches : s.branches.Grown t.branches
  phase : t.phase = .done ∨ (t.phase = s.phase ∧ s.cur + n < s.endOff)

theorem State.after_advanced (s : State) (line : Text) (n : Nat) : s.Advanced (s.after line n) n where
  window := ⟨rfl, rfl, rfl, rfl, rfl⟩
  host := rfl
  cur := rfl
  lines := ⟨line, rfl⟩
  calls := .inl rfl
  branches := .inl rfl
  phase := by
    by_cases h : s.endOff ≤ s.cur + n
    · exact .inl (if_pos h)
    · exact .inr ⟨if_neg h, by omega⟩

theorem knownStep_advanced (c : ClassSets) (mn : Text) (mode : Mode) (ops : List Byte) (s : State) :
    s.Advanced (knownStep c mn mode ops s) (instrSize mode s.ws) := by
  rw [knownStep_eq]
  refine ⟨⟨rfl, rfl, rfl, rfl, rfl⟩, rfl, rfl, ⟨_, rfl⟩, ?_, ?_, ?_⟩
  · by_cases h : mn ∈ c.call
    · exact .inr ⟨_, if_pos h⟩
    · exact .inl (if_neg h)
  · by_cases h : mode = .rel
    · exact .inr ⟨_, if_pos h⟩
    · exact .inl (if_neg h)
  · by_cases h : mn ∈ c.ret ∨ s.endOff ≤ s.cur + instrSize mode s.ws
    · exact .inl (if_pos h)
    · exact .inr ⟨if_neg h, Nat.lt_of_not_le fun hle => h (.inr hle)⟩

/-- Every step of the Decode Loop advances by 1 to 4 bytes. -/
theorem sequencerStep_advanced {p : Params} {s t : State} (h : sequencerStep p s = .next t) :
    ∃ n, 1 ≤ n ∧ n ≤ 4 ∧ s.Advanced t n := by
  obtain ⟨op, -, ⟨-, rfl⟩ | ⟨e, ops, -, -, rfl⟩⟩ := sequencerStep_next h
  · exact ⟨1, by omega, by omega, s.after_advanced _ 1⟩
  · exact ⟨_, instrSize_pos e.mode s.ws, instrSize_le e.mode s.ws, knownStep_advanced _ _ _ _ s⟩

theorem State.Advanced.bufferStable {s t : State} {n : Nat} (h : s.Advanced t n) (hs : s.BufferStable) :
    t.BufferStable := by
  intro b rest hhost
  exact hs b rest (h.host ▸ hhost)

/-- The invariant is kept by every advance of 1 to 4 bytes. -/
theorem State.Advanced.inv {m : Byte → Addr → Nat} {s t : State} {n : Nat} (h : s.Advanced t n) (hpos : 1 ≤ n)
    (hle : n ≤ 4) (hr : s.phase = .run) (hinv : s.Inv m) : t.Inv m := by
  obtain ⟨⟨hstart, hend, hra, hmax, hbuf⟩, hhost, hcur, ⟨line, hlines⟩, hcalls, hbranches, hphase⟩ := h
  obtain ⟨hlow, hhigh⟩ := hinv.inWindow hr
  have hidle : s.phase ≠ .idle := by simp [hr]
  have hcount := hinv.linesBound hidle
  exact {
    bufWf := hbuf ▸ hinv.bufWf
    hostWf := hhost ▸ hinv.hostWf
    callsSorted := hcalls.sorted hinv.callsSorted
    branchesSorted := hbranches.sorted hinv.branchesSorted
    startMapped := fun _ => by rw [hstart, hra, hinv.startMapped hidle]
    windowEnd := fun _ => by rw [hend, hbuf, hstart, hmax, hinv.windowEnd hr]
    inWindow := fun hrun => by
      obtain hdone | ⟨-, hlt⟩ := hphase
      · rw [hdone] at hrun
        cases hrun
      · omega
    cursorBound := fun _ => by omega
    linesBound := fun _ => by
      rw [hlines, List.length_append, List.length_singleton]
      omega }

/-! ### What the launcher does -/

/-- Whatever the launcher's step answers: the launch or the change of the buffer at the head of the queue. -/
theorem launcherStep_next {m : Byte → Addr → Nat} {s t : State} (h : launcherStep m s = .next t) :
    (∃ buf ra mb rest, s.host = .launch buf ra mb :: rest ∧
        t = ({ s with host := rest } : State).launchWith m buf ra mb) ∨
      ∃ buf rest, s.host = .changeBuffer buf :: rest ∧ t = { s with buf := buf, host := rest } := by
  unfold launcherStep at h
  split at h
  · cases h
  · exact .inl ⟨_, _, _, _, ‹_›, (Host.Outcome.next.inj h).symm⟩
  · exact .inr ⟨_, _, ‹_›, (Host.Outcome.next.inj h).symm⟩

/-- A launch meets the invariant, whatever a previous pass left. -/
theorem State.launchWith_inv {m : Byte → Addr → Nat} {s : State} {buf : Buffer} (ra : Addr) (mb : Option Nat)
    (hbuf : buf.wf = true) (hhost : ∀ a ∈ s.host, a.wf = true) : (s.launchWith m buf ra mb).Inv m where
  bufWf := hbuf
  hostWf := hhost
  callsSorted := List.Pairwise.nil
  branchesSorted := List.Pairwise.nil
  startMapped _ := rfl
  windowEnd _ := rfl
  inWindow h := by
    refine ⟨Nat.le_refl _, ?_⟩
    by_contra hlt
    have hdone : (s.launchWith m buf ra mb).phase = .done := if_neg hlt
    rw [hdone] at h
    cases h
  cursorBound _ := ⟨Nat.le_refl _, Nat.le_max_left _ _⟩
  linesBound _ := Nat.zero_le _

/-- A change of the buffer outside a pass keeps the invariant. -/
theorem State.Inv.changeBuffer {m : Byte → Addr → Nat} {s : State} (hinv : s.Inv m) (hr : s.phase ≠ .run) {buf : Buffer}
    {rest : List HostAction} (hbuf : buf.wf = true) (hhost : ∀ a ∈ rest, a.wf = true) :
    ({ s with buf := buf, host := rest } : State).Inv m :=
  { hinv with
    bufWf := hbuf
    hostWf := hhost
    windowEnd := fun h => absurd h hr }

theorem launcherStep_inv {m : Byte → Addr → Nat} {s t : State} (hinv : s.Inv m) (hr : s.phase ≠ .run)
    (h : launcherStep m s = .next t) : t.Inv m := by
  have hwf := hinv.hostWf
  obtain ⟨buf, ra, mb, rest, hhost, rfl⟩ | ⟨buf, rest, hhost, rfl⟩ := launcherStep_next h
  all_goals
    rw [hhost, List.forall_mem_cons] at hwf
    obtain ⟨hbuf, hrest⟩ := hwf
  · exact State.launchWith_inv ra mb hbuf hrest
  · exact hinv.changeBuffer hr hbuf hrest

/-- Every step of the core keeps the invariant, whatever its parameters. -/
theorem stepWith_inv {p : Params} {s t : State} (hinv : s.Inv p.mapper) (h : stepWith p s = .next t) :
    t.Inv p.mapper := by
  by_cases hr : s.phase = .run
  · obtain ⟨n, hpos, hle, hadv⟩ := sequencerStep_advanced (stepWith_next_run hr h)
    exact hadv.inv hpos hle hr hinv
  · obtain ⟨-, hstep⟩ := stepWith_next h
    rw [stepAdmitted_launcher hr] at hstep
    exact launcherStep_inv hinv hr hstep

/-! ### Every step of a pass answers, and every pass ends -/

/-- The operand bytes a step captures at an opcode: the bytes after it, clipped at `END`. -/
def State.operandBytes (s : State) (size : Nat) : List Byte :=
  (List.range (s.navail size)).map fun j => s.buf.cells.read (s.cur + 1 + j)

/-- Inside a window that ends inside the buffer, a known opcode is an entry with its operand bytes. -/
theorem State.AtOpcode.atEntry {p : Params} {s : State} {op : Byte} {e : Entry} (hop : s.AtOpcode op)
    (he : p.rom op = some e) (hlen : s.endOff ≤ s.buf.len) :
    s.AtEntry p op e (s.operandBytes (instrSize e.mode s.ws)) where
  toAtOpcode := hop
  entry := he
  captured := by simp [State.operandBytes, State.navail]
  bytes j b hj := by
    obtain ⟨hlt, hread⟩ := List.getElem?_eq_some_iff.1 hj
    simp only [State.operandBytes, List.length_map, List.length_range, State.navail] at hlt
    simp only [State.operandBytes, List.getElem_map, List.getElem_range] at hread
    exact Buffer.read?_eq_some.2 ⟨by omega, hread⟩

/-- During a pass with a stable buffer there is an opcode at the cursor. -/
theorem State.Inv.exists_atOpcode {m : Byte → Addr → Nat} {s : State} (hinv : s.Inv m) (hr : s.phase = .run)
    (hs : s.BufferStable) : ∃ op, s.AtOpcode op := by
  have hinside := hinv.inWindow hr
  have hlen := hinv.endOff_le_len hr
  exact ⟨_, hr, hs, hinside, Buffer.read?_eq_some.2 ⟨by omega, rfl⟩⟩

theorem State.Inv.exists_sequencerStep {p : Params} {s : State} (hinv : s.Inv p.mapper) (hr : s.phase = .run)
    (hs : s.BufferStable) : ∃ t, sequencerStep p s = .next t := by
  obtain ⟨op, hop⟩ := hinv.exists_atOpcode hr hs
  cases he : p.rom op with
  | none => exact ⟨_, sequencerStep_unknown (readByte_at hop) he⟩
  | some e => exact ⟨_, sequencerStep_known (hop.atEntry he (hinv.endOff_le_len hr))⟩

theorem State.Inv.exists_stepWith {p : Params} {s : State} (hinv : s.Inv p.mapper) (h5 : p.RC5) (hr : s.phase = .run)
    (hs : s.BufferStable) : ∃ t, stepWith p s = .next t := by
  rw [stepWith_of_rc5 h5, stepAdmitted_run hr hs]
  exact hinv.exists_sequencerStep hr hs

theorem launcherStep_ne_fault (m : Byte → Addr → Nat) (s : State) (f : Fault) : launcherStep m s ≠ .fault f := by
  unfold launcherStep
  split <;> simp

/-- Under the invariant no step faults: every read of a pass is inside the window and the buffer (R190). -/
theorem stepWith_ne_fault {p : Params} {s : State} (hinv : s.Inv p.mapper) (f : Fault) : stepWith p s ≠ .fault f := by
  by_cases h5 : p.RC5
  · rw [stepWith_of_rc5 h5]
    by_cases hr : s.phase = .run
    · by_cases hs : s.BufferStable
      · obtain ⟨t, ht⟩ := hinv.exists_sequencerStep hr hs
        rw [stepAdmitted_run hr hs, ht]
        simp
      · obtain ⟨buf, rest, hhost⟩ := State.exists_changeBuffer hs
        rw [stepAdmitted_changeBuffer hr hhost]
        simp
    · rw [stepAdmitted_launcher hr]
      exact launcherStep_ne_fault p.mapper s f
  · rw [stepWith, if_neg (fun hc => h5 (rc5Holds_iff.1 hc))]
    simp

/-- A pass with at most `fuel` bytes left reaches `DONE` within `fuel` steps: each step moves the cursor. -/
theorem exists_run_done {p : Params} (h5 : p.RC5) (fuel : Nat) {s : State} (hinv : s.Inv p.mapper) (hr : s.phase = .run)
    (hs : s.BufferStable) (hfuel : s.endOff - s.cur ≤ fuel) :
    ∃ (k : Nat) (t : State), k ≤ fuel ∧ (coreWith p).run k s = .next t ∧ t.phase = .done := by
  induction fuel generalizing s with
  | zero =>
    have hinside := hinv.inWindow hr
    omega
  | succ fuel ih =>
    obtain ⟨t, ht⟩ := hinv.exists_stepWith h5 hr hs
    obtain ⟨n, hpos, -, hadv⟩ := sequencerStep_advanced (stepWith_next_run hr ht)
    obtain hdone | ⟨hrun, -⟩ := hadv.phase
    · exact ⟨1, t, by omega, coreWith_run_next ht 0, hdone⟩
    · have hless : t.endOff - t.cur ≤ fuel := by
        rw [hadv.window.endOff, hadv.cur]
        omega
      obtain ⟨k, u, hk, hrunk, hu⟩ := ih (stepWith_inv hinv ht) (hrun.trans hr) (hadv.bufferStable hs) hless
      exact ⟨k + 1, u, by omega, (coreWith_run_next ht k).trans hrunk, hu⟩

theorem State.exists_result {s : State} (h : s.phase = .done) : ∃ r, s.result? = some r := by
  simp [State.result?, h]

/-! ### The obligations -/

/-- Settles O49: a step of a pass advances by 1 to 4 bytes, a launch sets every register the invariant speaks of, and a
change of the buffer takes a buffer that was waiting. The machine is the core with the reference parameters. -/
theorem stepKeepsInvariant : Obligations.StepKeepsInvariant := by
  refine ⟨fun s t hinv h => ?_, fun p s t hinv h => stepWith_inv hinv h⟩
  rw [stepRefinesSequencer s] at h
  exact stepWith_inv (p := refParams) hinv h

/-- Settles O48: power-on is `IDLE`, with empty sets and an empty buffer. -/
theorem powerOnMeetsInvariant : Obligations.PowerOnMeetsInvariant := by
  have hidle : State.reset.phase = .idle := rfl
  have hrun : State.reset.phase ≠ .run := by decide
  refine ⟨?_, by simp [State.DescriptorsFromLines, State.reset], by simp [State.CallsFromClass, State.reset]⟩
  exact {
    bufWf := rfl
    hostWf := by simp [State.reset]
    callsSorted := List.Pairwise.nil
    branchesSorted := List.Pairwise.nil
    startMapped := fun h => absurd hidle h
    windowEnd := fun h => absurd h hrun
    inWindow := fun h => absurd h hrun
    cursorBound := fun h => absurd hidle h
    linesBound := fun h => absurd hidle h }

/-- Settles O51: under the invariant every read is inside the window and the buffer, and each step of a pass moves the
cursor by at least 1. -/
theorem everyPassEndsWithoutFault : Obligations.EveryPassEndsWithoutFault := by
  refine fun p s hinv => ⟨stepWith_ne_fault hinv, fun h5 hr hs => ⟨hinv.exists_stepWith h5 hr hs, ?_⟩⟩
  obtain ⟨k, t, hk, hrun, hdone⟩ := exists_run_done h5 (s.endOff - s.cur) hinv hr hs (Nat.le_refl _)
  exact ⟨k, t, hk, hrun, hdone, State.exists_result hdone⟩

end Sys2Proof.Machine
end

section
/-! SUPPORT. The Address Mapper, hexadecimal rendering and the Operand Formatter: values, shapes and characters, and the
obligations of spec/20_memory.md, spec/00_scope.md and spec/40_operand_formatter.md. -/

namespace Sys2Proof.Machine

open Sys2Proof

/-! ### The Address Mapper -/

/-- The mapper keeps the low 15 bits of the address and puts the bank above them (R40). -/
theorem linearOffset_eq (bank : Byte) (addr : Addr) :
    linearOffset bank addr = bank.toNat * 0x8000 + addr.toNat % 0x8000 := by
  rw [addressMapperFormula bank addr]
  exact congrArg (bank.toNat * 0x8000 + ·) (Nat.and_two_pow_sub_one_eq_mod addr.toNat 15)

/-- Setting bit 15 keeps the low 15 bits. -/
theorem toNat_or_bit15_mod (addr : Addr) : (addr ||| 0x8000).toNat % 0x8000 = addr.toNat % 0x8000 :=
  calc (addr.toNat ||| 0x8000) % 2 ^ 15 = addr.toNat % 2 ^ 15 ||| 0x8000 % 2 ^ 15 := Nat.or_mod_two_pow
    _ = addr.toNat % 2 ^ 15 := Nat.or_zero _

/-! ### Hexadecimal digits -/

/-- The value of a hexadecimal digit character. -/
def hexValue (c : Char) : Nat := if c.toNat < 58 then c.toNat - 48 else c.toNat - 55

/-- The number a text of hexadecimal digits stands for, most significant first. -/
def hexRead (t : Text) : Nat := t.foldl (fun acc c => 16 * acc + hexValue c) 0

theorem hexValue_hexDigit_all : ∀ d : Fin 16, hexValue (hexDigit d.val) = d.val := by decide

theorem hexValue_hexDigit {d : Nat} (h : d < 16) : hexValue (hexDigit d) = d := hexValue_hexDigit_all ⟨d, h⟩

theorem hexRead_append_singleton (t : Text) (c : Char) : hexRead (t ++ [c]) = 16 * hexRead t + hexValue c := by
  simp [hexRead]

/-- Rendering and reading back gives the value modulo `16 ^ n` (R12). -/
theorem hexRead_hexN (n v : Nat) : hexRead (hexN n v) = v % 16 ^ n := by
  induction n generalizing v with
  | zero => exact (Nat.mod_one v).symm
  | succ n ih =>
    calc hexRead (hexN n (v / 16) ++ [hexDigit (v % 16)])
        = 16 * hexRead (hexN n (v / 16)) + hexValue (hexDigit (v % 16)) := hexRead_append_singleton _ _
      _ = 16 * (v / 16 % 16 ^ n) + v % 16 := by rw [ih, hexValue_hexDigit (Nat.mod_lt v (by omega))]
      _ = v % (16 * 16 ^ n) := by rw [Nat.mod_mul, Nat.add_comm]
      _ = v % 16 ^ (n + 1) := by rw [Nat.pow_succ']

/-- The codes of the digits are those of `0` to `9` and of `A` to `F`. -/
theorem hexDigits_code :
    ∀ c ∈ hexDigits, (48 ≤ c.toNat ∧ c.toNat ≤ 57) ∨ (65 ≤ c.toNat ∧ c.toNat ≤ 70) := by simp [hexDigits]

/-! ### Operand values -/

theorem word16_eq_append (ops : List Byte) : word16 ops = (ops.getD 1 0 ++ ops.getD 0 0).toNat := by
  rw [BitVec.toNat_append, Nat.or_comm]
  rfl

theorem word24_eq_append (ops : List Byte) : word24 ops = (ops.getD 2 0 ++ ops.getD 1 0 ++ ops.getD 0 0).toNat := by
  rw [BitVec.append_assoc, BitVec.toNat_cast, BitVec.toNat_append, ← word16_eq_append, Nat.or_comm]
  rfl

/-- Appended zero bytes are what a missing byte reads as (R81). -/
theorem opByte_append_zeros (ops : List Byte) (n j : Nat) : opByte (ops ++ List.replicate n 0) j = opByte ops j := by
  unfold opByte
  by_cases hj : j < ops.length
  · exact List.getD_append _ _ _ _ hj
  · have hle : ops.length ≤ j := Nat.le_of_not_lt hj
    rw [List.getD_append_right _ _ _ _ hle, List.getD_eq_default ops _ hle]
    by_cases hn : j - ops.length < n
    · exact List.getD_replicate _ hn
    · exact List.getD_eq_default _ _ (by rw [List.length_replicate]; exact Nat.le_of_not_lt hn)

/-- The two's complement reading of the operand byte (R60, R91). -/
theorem signExtend_toNat (b : Byte) :
    (b.signExtend 16).toNat = if b.toNat < 0x80 then b.toNat else b.toNat + 0xFF00 := by
  have hb := b.isLt
  have hwide : (b.setWidth 16).toNat = b.toNat := by
    rw [BitVec.toNat_setWidth]
    exact Nat.mod_eq_of_lt (by omega)
  have hmsb : b.msb = true ↔ ¬ b.toNat < 0x80 := by rw [BitVec.msb_eq_decide, decide_eq_true_iff, Nat.not_lt]
  rw [BitVec.toNat_signExtend, hwide]
  simp only [hmsb, ite_not]
  split <;> rfl

/-- The target is the sum of the program counter, the constant 2 and the extended operand byte, modulo 65536 (R91). -/
theorem relTarget_toNat (ops : List Byte) (pc : Addr) :
    (relTarget ops pc).toNat = (pc.toNat + 2 + ((opByte ops 0).signExtend 16).toNat) % 65536 := by
  have hbase : relBase.toNat = 2 := rfl
  rw [relTarget, BitVec.toNat_add, BitVec.toNat_add, hbase, Nat.mod_add_mod]

/-! ### The characters and lengths of operand texts -/

/-- The characters of operand texts (R96). -/
def operandChars : List Char := ['#', '$', ',', 'X', 'Y'] ++ hexDigits

theorem hexN_subset_operandChars (n v : Nat) : hexN n v ⊆ operandChars :=
  fun c hc => List.mem_append_right _ (hexN_mem n v c hc)

theorem immText_subset_operandChars (ops : List Byte) : immText ops ⊆ operandChars := by
  unfold immText
  split <;> exact List.append_subset.2 ⟨by decide, hexN_subset_operandChars _ _⟩

theorem fmt_subset_operandChars (mode : Mode) (ops : List Byte) (pc : Addr) : fmt mode ops pc ⊆ operandChars := by
  cases mode with
  | imp => exact List.nil_subset _
  | immM | immX => exact immText_subset_operandChars ops
  | imm8 | abs | long | rel => exact List.append_subset.2 ⟨by decide, hexN_subset_operandChars _ _⟩
  | absY | dpX =>
    exact List.append_subset.2
      ⟨List.append_subset.2 ⟨by decide, hexN_subset_operandChars _ _⟩, by decide⟩

theorem operandChars_code : ∀ c ∈ operandChars,
    c ∈ ['#', '$', ',', 'X', 'Y'] ∨ (48 ≤ c.toNat ∧ c.toNat ≤ 57) ∨ (65 ≤ c.toNat ∧ c.toNat ≤ 70) :=
  fun c hc => (List.mem_append.1 hc).imp_right (hexDigits_code c)

theorem operandChars_noSpace (c : Char) (hc : c ∈ operandChars) : (c == ' ') = false :=
  (List.mem_append.1 hc).elim ((by simp : ∀ c ∈ ['#', '$', ',', 'X', 'Y'], (c == ' ') = false) c) (hexDigits_noSpace c)

theorem operandChars_upper (c : Char) (hc : c ∈ operandChars) : upperChar c = c :=
  (List.mem_append.1 hc).elim
    ((by simp [upperChar, isLower] : ∀ c ∈ ['#', '$', ',', 'X', 'Y'], upperChar c = c) c) (hexDigits_upper c)

theorem immText_length (ops : List Byte) : (immText ops).length = if ops.length ≤ 1 then 4 else 6 := by
  rw [immText_eq]
  split <;> simp

/-! ### The obligations -/

/-- Settles O7: bank and low 15 bits are the two digits of the offset to the base `0x8000`. -/
theorem addressMapperRange : Obligations.AddressMapperRange := by
  intro bank addr
  have hbank := bank.isLt
  have hmod := Nat.mod_lt addr.toNat (show 0 < 0x8000 by omega)
  simp only [linearOffset_eq, toNat_or_bit15_mod]
  refine ⟨by omega, trivial, by omega⟩

/-- Settles O8: assembling by shifts is concatenation, and the sizes are the sizer's rows. -/
theorem operandTextLittleEndian : Obligations.OperandTextLittleEndian := by
  intro ops pc
  have himm : immText ops = if ops.length ≤ 1 then ['#', '$'] ++ hexN 2 (ops.getD 0 0).toNat
      else ['#', '$'] ++ hexN 4 (ops.getD 1 0 ++ ops.getD 0 0).toNat := by
    rw [immText_eq, ← word16_eq, word16_eq_append]
    split <;> rfl
  refine ⟨rfl, rfl, himm, himm, ?_, ?_, rfl, ?_, fun _ => ⟨rfl, rfl, rfl, rfl, rfl, rfl, rfl, rfl⟩⟩
  · rw [← word16_eq_append]
    rfl
  · rw [← word16_eq_append]
    rfl
  · rw [← word24_eq_append]
    rfl

/-- Settles O9: sign extension adds `0xFF00` to a negative offset, which is `-0x100` modulo 65536. -/
theorem branchTargetResolver : Obligations.BranchTargetResolver := by
  refine ⟨fun b pc => ?_, fun pc => ?_⟩
  · have hop : opByte [b] 0 = b := rfl
    rw [relTarget_toNat, hop, signExtend_toNat]
    split <;> omega
  · have hzero : ((opByte [] 0).signExtend 16).toNat = 0 := by decide
    rw [relTarget_toNat, hzero, Nat.add_zero]

/-- Settles O10: by the length, the characters and the value of `hexN`. -/
theorem hexRenderingReadsBack : Obligations.HexRenderingReadsBack :=
  fun n v => ⟨hexN_length n v, fun c hc => hexDigits_code c (hexN_mem n v c hc), hexRead_hexN n v⟩

/-- Settles O11: a mode of fixed width reads only single operand bytes, and an appended zero is what a missing byte reads
as. -/
theorem missingBytesRenderAsZero : Obligations.MissingBytesRenderAsZero := by
  intro mode ops n pc h
  cases mode with
  | immM | immX => cases h
  | imp | imm8 | abs | absY | dpX | long | rel => simp only [fmt, word24, word16, relTarget, opByte_append_zeros]

/-- Settles O12: in each mode the rendered digits are those of the bundle's value, of its target in `REL`. -/
theorem textFromStructuredOutputs : Obligations.TextFromStructuredOutputs := by
  intro mode ops pc
  cases mode with
  | immM | immX =>
    simp only [fmt, fmtOutputs, immText_eq, ← word16_eq]
    split <;> rfl
  | imp | imm8 | abs | absY | dpX | long | rel => rfl

/-- Settles O13: the lengths mode by mode, the characters from the set of operand characters. -/
theorem operandTextShapes : Obligations.OperandTextShapes := by
  refine fun mode ops pc => ⟨?_, fun c hc => operandChars_code c (fmt_subset_operandChars mode ops pc hc)⟩
  cases mode with
  | immM | immX => exact immText_length ops
  | imp | imm8 | abs | absY | dpX | long | rel => simp [fmt]

end Sys2Proof.Machine
end

section
/-! SUPPORT. The order of strings, the sets of strings and the delivered result, and the obligations of
spec/41_decode_loop.md section 3 about them. -/

namespace Sys2Proof.Machine

open Sys2Proof

/-! ### The order -/

/-- A common beginning decides nothing (R121). -/
theorem textLt_append_left (a u v : Text) : textLt (a ++ u) (a ++ v) = textLt u v := by
  induction a with
  | nil => rfl
  | cons c a ih => simp [textLt, ih]

theorem textLt_nil_left {b : Text} (h : b ≠ []) : textLt [] b = true := by
  obtain ⟨c, t, rfl⟩ := List.exists_cons_of_ne_nil h
  rfl

theorem textLt_cons_of_lt {c d : Char} (u v : Text) (h : c.toNat < d.toNat) : textLt (c :: u) (d :: v) = true := by
  rw [textLt, if_pos h]

/-! ### The sets -/

/-- The strings of a set in canonical form are distinct. -/
theorem TextSet.Sorted.nodup {t : TextSet} (h : t.Sorted) : t.Nodup :=
  List.Pairwise.imp (fun hlt heq => by rw [heq, textLt_irrefl] at hlt; cases hlt) h

/-- Adding a member changes nothing (R122). -/
theorem TextSet.insert_of_mem {d : Text} {t : TextSet} (ht : t.Sorted) (hd : d ∈ t) : TextSet.insert d t = t := by
  induction t with
  | nil => cases hd
  | cons y ys ih =>
    obtain ⟨hy, hys⟩ := List.pairwise_cons.1 ht
    obtain rfl | hmem := List.mem_cons.1 hd
    · simp [TextSet.insert, textLt_irrefl]
    · have hlt := hy d hmem
      have hne : d ≠ y := fun heq => by rw [heq, textLt_irrefl] at hlt; cases hlt
      simp [TextSet.insert, textLt_asymm hlt, hne, ih hys hmem]

/-- Sorting gives the canonical form of any list of strings. -/
theorem sortedSet_sorted (s : List Text) : TextSet.Sorted (sortedSet s) := by
  induction s with
  | nil => exact List.Pairwise.nil
  | cons d s ih => exact TextSet.insert_pairwise ih

/-- Sorting keeps exactly the members. -/
theorem mem_sortedSet {s : List Text} {x : Text} : x ∈ sortedSet s ↔ x ∈ s := by
  induction s with
  | nil => rfl
  | cons d s ih => rw [sortedSet, List.foldr_cons, ← sortedSet, TextSet.mem_insert, ih, List.mem_cons]

/-! ### The result -/

theorem State.result?_of_done {s : State} (h : s.phase = .done) :
    s.result? = some ⟨s.lines, sortedSet s.calls, sortedSet s.branches⟩ := by
  simp only [State.result?, h]

theorem State.result?_of_ne_done {s : State} (h : s.phase ≠ .done) : s.result? = none := by
  unfold State.result?
  split
  · exact absurd ‹_› h
  · rfl
  · rfl

/-! ### The obligations -/

/-- Settles O23: the first difference decides, after a common beginning has been dropped. -/
theorem lexicographicOrderTotal : Obligations.LexicographicOrderTotal := by
  refine ⟨textLt_irrefl, fun a b c => textLt_trans, fun a b hne => ⟨textLt_asymm, fun h => textLt_total h hne.symm⟩,
    fun a b hb => ?_, fun a c d u v hlt => ?_⟩
  · have h := textLt_append_left a [] b
    rw [List.append_nil] at h
    exact h.trans (textLt_nil_left hb)
  · exact (textLt_append_left a _ _).trans (textLt_cons_of_lt u v hlt)

/-- Settles O22: in a set in canonical form the strings are distinct, and sorting it changes nothing. -/
theorem duplicateDescriptorsAddNothing : Obligations.DuplicateDescriptorsAddNothing := by
  refine fun t d ht => ⟨TextSet.insert_of_mem ht, TextSet.insert_pairwise ht, fun x => TextSet.mem_insert, ?_⟩
  rw [sortedSet_eq_self ht]
  exact ht.nodup.count

/-- Settles O21: the result is a function of the phase, and sorting a set keeps its members. -/
theorem resultSortedWithoutDuplicates : Obligations.ResultSortedWithoutDuplicates := fun _ =>
  ⟨State.result?_of_ne_done, fun h => ⟨_, State.result?_of_done h, rfl, sortedSet_sorted _, fun _ => mem_sortedSet,
    sortedSet_sorted _, fun _ => mem_sortedSet⟩⟩

end Sys2Proof.Machine
end

section
/-! SUPPORT. Power-on, the launch and the launcher's actions outside a pass, and the obligations of
spec/70_reset_and_hazards.md, spec/41_decode_loop.md section 1 and spec/20_memory.md section 7 about them. -/

namespace Sys2Proof.Machine

open Sys2Proof

/-! ### The step outside a pass -/

/-- With an admitted table the step outside a pass is the launcher's (R118, R203). -/
theorem stepWith_launcher {p : Params} {s : State} (h5 : p.RC5) (hr : s.phase ≠ .run) :
    stepWith p s = launcherStep p.mapper s :=
  (stepWith_of_rc5 h5 s).trans (stepAdmitted_launcher hr)

theorem launcherStep_nil {m : Byte → Addr → Nat} {s : State} (h : s.host = []) :
    launcherStep m s = .refused .noStepEnabled := by
  unfold launcherStep
  rw [h]

theorem launcherStep_changeBuffer {m : Byte → Addr → Nat} {s : State} {buf : Buffer} {rest : List HostAction}
    (h : s.host = .changeBuffer buf :: rest) : launcherStep m s = .next { s with buf := buf, host := rest } := by
  unfold launcherStep
  rw [h]

/-- A waiting launch is the machine's next step outside a pass. -/
theorem step_launch {s : State} {buf : Buffer} {ra : Addr} {mb : Option Nat} {rest : List HostAction}
    (hr : s.phase ≠ .run) (h : s.host = .launch buf ra mb :: rest) :
    step s = .next (({ s with host := rest } : State).launchWith linearOffset buf ra mb) :=
  (step_launcher hr).trans (launcherStep_launch h)

theorem stepWith_launch {p : Params} {s : State} {buf : Buffer} {ra : Addr} {mb : Option Nat} {rest : List HostAction}
    (h5 : p.RC5) (hr : s.phase ≠ .run) (h : s.host = .launch buf ra mb :: rest) :
    stepWith p s = .next (({ s with host := rest } : State).launchWith p.mapper buf ra mb) :=
  (stepWith_launcher h5 hr).trans (launcherStep_launch h)

/-- A launch reads the queue and no register, so what stood in the state before does not matter. -/
theorem launcherStep_launch_congr {m : Byte → Addr → Nat} {s₁ s₂ : State} {buf : Buffer} {ra : Addr} {mb : Option Nat}
    {rest : List HostAction} (h₁ : s₁.host = .launch buf ra mb :: rest) (h₂ : s₂.host = s₁.host) :
    launcherStep m s₁ = launcherStep m s₂ :=
  (launcherStep_launch h₁).trans (launcherStep_launch (h₂.trans h₁)).symm

/-- Two states whose next steps are the same run alike. -/
theorem coreWith_run_congr {p : Params} {s₁ s₂ : State} (h : stepWith p s₁ = stepWith p s₂) (k : Nat) :
    (coreWith p).run (k + 1) s₁ = (coreWith p).run (k + 1) s₂ := by
  simp only [Host.Core.run, coreWith, h]

/-! ### The obligations -/

/-- Settles O15: the reset state run for one step. -/
theorem powerOnIsIdle : Obligations.PowerOnIsIdle :=
  ⟨rfl, rfl, rfl⟩

/-- Settles O16: the step is the launch, field by field. -/
theorem launchInitialises : Obligations.LaunchInitialises := by
  intro s buf ra mb rest hr hhost
  cases mb with
  | none | some m =>
    exact ⟨_, step_launch hr hhost, rfl, rfl, rfl, rfl, rfl, rfl, rfl, rfl, rfl, rfl, rfl, rfl,
      State.launchWith_pc _ _ _ _ _⟩

/-- Settles O17: the first step of both runs is the same launch, or the same refusal of the table. -/
theorem passDependsOnLaunchInputs : Obligations.PassDependsOnLaunchInputs := by
  intro p s₁ s₂ buf ra mb rest k hr₁ hr₂ hhost₁ hsame
  refine coreWith_run_congr ?_ k
  unfold stepWith
  rw [stepAdmitted_launcher hr₁, stepAdmitted_launcher hr₂, launcherStep_launch_congr hhost₁ hsame]

/-- Settles O18: in both cases `END` is at most `START`, and nothing has been listed. -/
theorem emptyWindowGivesEmptyResult : Obligations.EmptyWindowGivesEmptyResult := by
  intro s buf ra mb rest hr hhost hempty
  have hend : ¬ linearOffset 0 ra < min buf.len (linearOffset 0 ra + mb.getD defaultMaxBytes) := by
    obtain rfl | hlen := hempty
    · simp
    · omega
  have hdone : (({ s with host := rest } : State).launchWith linearOffset buf ra mb).phase = .done := if_neg hend
  exact ⟨_, step_launch hr hhost, hdone, State.result?_of_done hdone⟩

/-- Settles O19: the launcher acts outside a pass, and no action waits. -/
theorem noStepOutsidePass : Obligations.NoStepOutsidePass := fun _ _ h5 hr hhost =>
  (stepWith_launcher h5 hr).trans (launcherStep_nil hhost)

/-- Settles O20: during a pass the head of the queue is looked at before the Decode Loop steps. -/
theorem bufferChangeDuringPassRefused : Obligations.BufferChangeDuringPassRefused := by
  intro p s buf rest h5 hr hhost
  rw [stepWith_of_rc5 h5, stepAdmitted_changeBuffer hr hhost]

/-- Settles O57: the launcher's step replaces the buffer and the queue, and the result reads neither. -/
theorem bufferChangeOutsidePassKeepsRegisters : Obligations.BufferChangeOutsidePassKeepsRegisters := by
  intro p s buf rest h5 hr hhost
  exact ⟨_, (stepWith_launcher h5 hr).trans (launcherStep_changeBuffer hhost),
    (step_launcher hr).trans (launcherStep_changeBuffer hhost), rfl, rfl, rfl, rfl, rfl, rfl, rfl, rfl, rfl, rfl, rfl,
    rfl, rfl⟩

/-- Settles O56: the check of RC5 fails, and it comes before everything else. -/
theorem tableOutsideRC5Refused : Obligations.TableOutsideRC5Refused := fun _ _ h5 =>
  if_neg fun hcheck => h5 (rc5Holds_iff.1 hcheck)

end Sys2Proof.Machine
end

section
/-! SUPPORT. The line and the descriptor of an entry with an operand, the step of an entry class by class, and the
obligations of spec/41_decode_loop.md, spec/42_width_control.md and spec/43_flow_control.md about any table. -/

namespace Sys2Proof.Machine

open Sys2Proof

/-! ### Lines and descriptors -/

/-- Only an implicit instruction has no operand text (R82). -/
theorem fmt_ne_nil {mode : Mode} (h : mode ≠ .imp) (ops : List Byte) (pc : Addr) : fmt mode ops pc ≠ [] := by
  cases mode with
  | imp => exact absurd rfl h
  | immM | immX =>
    simp only [fmt, immText_eq]
    exact List.cons_ne_nil _ _
  | imm8 | abs | absY | dpX | long | rel => exact List.cons_ne_nil _ _

/-- No operand text contains a space. -/
theorem fmt_getLast?_noSpace (mode : Mode) (ops : List Byte) (pc : Addr) :
    ∀ c, (fmt mode ops pc).getLast? = some c → (c == ' ') = false :=
  fun c hc => operandChars_noSpace c (fmt_subset_operandChars mode ops pc (List.mem_of_getLast? hc))

/-- The line of an instruction with an operand is not shortened by the trim (R107). -/
theorem knownLine_fmt {mode : Mode} (h : mode ≠ .imp) (mn : Text) (ops : List Byte) (s : State) :
    knownLine s.pc mn (fmt mode ops s.pc) = s.pcPrefix ++ mn ++ [' '] ++ fmt mode ops s.pc :=
  knownLine_of_text (fmt_ne_nil h ops s.pc) (fmt_getLast?_noSpace mode ops s.pc)

theorem State.pcPrefix_length (s : State) : s.pcPrefix.length = 6 := by
  simp [State.pcPrefix]

/-- Operand texts are in uppercase already. -/
theorem upper_fmt (mode : Mode) (ops : List Byte) (pc : Addr) : upper (fmt mode ops pc) = fmt mode ops pc :=
  (List.map_congr_left fun c hc => operandChars_upper c (fmt_subset_operandChars mode ops pc hc)).trans (List.map_id _)

/-- The descriptor of an instruction with an operand is, in uppercase, its line without the first six characters (R124). -/
theorem descriptor_eq_upper_knownLine {mode : Mode} (h : mode ≠ .imp) (mn : Text) (ops : List Byte) (s : State) :
    descriptor mn (fmt mode ops s.pc) = upper ((knownLine s.pc mn (fmt mode ops s.pc)).drop 6) := by
  have hspace : upper [' '] = [' '] := by decide
  rw [knownLine_fmt h, List.append_assoc, List.append_assoc, List.drop_left' s.pcPrefix_length, upper_append,
    upper_append, upper_fmt, hspace, descriptor, List.append_assoc]

/-! ### The width flags -/

theorem setStatus_eq (q : Byte) (ws : WidthState) :
    setStatus q ws = ⟨if q.getLsbD 5 = true then false else ws.m8, if q.getLsbD 4 = true then false else ws.x8⟩ := by
  rw [setStatus, testBits_accBit, testBits_idxBit]

theorem resetStatus_eq (q : Byte) (ws : WidthState) :
    resetStatus q ws = ⟨if q.getLsbD 5 = true then true else ws.m8, if q.getLsbD 4 = true then true else ws.x8⟩ := by
  rw [resetStatus, testBits_accBit, testBits_idxBit]

/-! ### The fields after the step of an entry -/

section
variable (c : ClassSets) (mn : Text) (mode : Mode) (ops : List Byte) (s : State)

theorem knownStep_calls :
    (knownStep c mn mode ops s).calls =
      if mn ∈ c.call then TextSet.insert (descriptor mn (fmt mode ops s.pc)) s.calls else s.calls := by rw [knownStep_eq]

theorem knownStep_branches :
    (knownStep c mn mode ops s).branches =
      if mode = .rel then TextSet.insert (descriptor mn (fmt mode ops s.pc)) s.branches else s.branches := by
  rw [knownStep_eq]

theorem knownStep_phase :
    (knownStep c mn mode ops s).phase =
      if mn ∈ c.ret ∨ s.endOff ≤ s.cur + instrSize mode s.ws then .done else s.phase := by rw [knownStep_eq]

theorem knownStep_ws_nil : (knownStep c mn mode [] s).ws = s.ws := by
  rw [knownStep_eq]
  simp [widthUpdate]

/-- A reset-status instruction has the last word on a flag whose bit is set, a set-status one the next (R116, D22). -/
theorem knownStep_ws_cons (q : Byte) :
    (knownStep c mn mode (q :: ops) s).ws =
      ⟨if q.getLsbD 5 = true ∧ mn ∈ c.rep then true else if q.getLsbD 5 = true ∧ mn ∈ c.sep then false else s.ws.m8,
       if q.getLsbD 4 = true ∧ mn ∈ c.rep then true else if q.getLsbD 4 = true ∧ mn ∈ c.sep then false else s.ws.x8⟩ := by
  rw [knownStep_eq]
  by_cases hrep : mn ∈ c.rep <;> by_cases hsep : mn ∈ c.sep <;>
    simp [hrep, hsep, widthUpdate, setStatus_eq, resetStatus_eq]

end

/-! ### The step of an entry, class by class -/

/-- A call is the line, the advance and its descriptor in `CALLS` (R140). -/
theorem callStep_eq_after (mn : Text) (mode : Mode) (ops : List Byte) (s : State) :
    callStep mn mode ops s =
      { s.after (knownLine s.pc mn (fmt mode ops s.pc)) (instrSize mode s.ws) with
        calls := TextSet.insert (descriptor mn (fmt mode ops s.pc)) s.calls } := callStep_eq mn mode ops s

/-- A branch is the line, the advance by 2 and its descriptor in `BRANCHES` (R145). -/
theorem branchStep_eq_after (mn : Text) (ops : List Byte) (s : State) :
    branchStep mn ops s =
      { s.after (s.pcPrefix ++ mn ++ [' '] ++ fmt .rel ops s.pc) 2 with
        branches := TextSet.insert (upper mn ++ [' '] ++ fmt .rel ops s.pc) s.branches } := by
  rw [← knownLine_fmt (by decide)]
  exact branchStep_eq mn ops s

/-- The text of a relative operand is the resolved target (R91). -/
theorem fmt_rel_eq (ops : List Byte) (pc : Addr) :
    fmt .rel ops pc = ['$'] ++ hexN 4 (pc + 2 + (ops.getD 0 0).signExtend 16).toNat := rfl

/-- A mnemonic that is neither a call nor a return, in a mode that is no relative branch, writes the line, the cursor, the
phase and the width flags only; `knownStep_set` and `knownStep_reset` are the cases of an 8-bit immediate. -/
theorem knownStep_status_anyMode {c : ClassSets} {mn : Text} {mode : Mode} {ops : List Byte} {s : State}
    (hcall : mn ∉ c.call) (hret : mn ∉ c.ret) (hrel : mode ≠ .rel) :
    knownStep c mn mode ops s =
      { s.after (knownLine s.pc mn (fmt mode ops s.pc)) (instrSize mode s.ws) with
        ws := (knownStep c mn mode ops s).ws } := by
  rw [knownStep_eq]
  simp only [State.after, if_neg hcall, if_neg hrel, hret, false_or]

/-! ### The obligations about the step of any table -/

/-- Settles O25: the step of the entry, field by field. -/
theorem knownOpcodeStep : Obligations.KnownOpcodeStep := by
  intro p s op e ops h5 hat text size d flag
  refine ⟨_, stepWith_atEntry h5 hat, knownStep_lines .., knownStep_calls .., knownStep_branches .., knownStep_cur .., ?_, ?_,
    ?_⟩
  · rw [knownStep_phase, hat.running]
  · cases ops with
    | nil => exact knownStep_ws_nil ..
    | cons q ops => exact knownStep_ws_cons ..
  · obtain ⟨hstart, hend, hra, hmax, hbuf⟩ := (knownStep_advanced p.classes e.mnemonic e.mode ops s).window
    exact ⟨hstart, hend, hra, hmax, (knownStep_advanced p.classes e.mnemonic e.mode ops s).host, by rw [hbuf],
      fun k => by rw [hbuf]⟩

/-- Settles O55: RC5 keeps the special classes from being relative branches, so a relative branch is in no class. -/
theorem branchClassStep : Obligations.BranchClassStep := by
  intro p s op e ops h5 hat hrel
  have hclass := fun h => (h5 op e hat.entry).2 h hrel
  simp only [imp_false, not_or] at hclass
  obtain ⟨hcall, hret, hsep, hrep⟩ := hclass
  rw [stepWith_atEntry h5 hat, hrel, knownStep_branch hcall hret hsep hrep, branchStep_eq_after, fmt_rel_eq]

/-- Settles O26: RC5 gives the modes, and the class sets are disjoint, so the step is that of a call. -/
theorem callClassStep : Obligations.CallClassStep := by
  intro p s op e ops hp hat hcall
  have hmode := (hp.rc5 op e hat.entry).1 hcall
  have hrel := (hp.rc5 op e hat.entry).2 (.inl hcall)
  obtain ⟨hdisjoint, -, -, -⟩ := Params.Admissible.classes_disjoint hp e.mnemonic
  obtain ⟨hret, hsep, hrep⟩ := hdisjoint hcall
  refine ⟨hmode, ?_⟩
  rw [stepWith_atEntry hp.rc5 hat, knownStep_call hcall hret hsep hrep hrel, callStep_eq_after]

/-- Settles O29: RC4 fixes the size, the class sets are disjoint, and the first captured byte alone decides the flags. -/
theorem statusClassWritesWidth : Obligations.StatusClassWritesWidth := by
  intro p s op e ops to8 hp hat hclass
  have hstatus : e.mnemonic ∈ p.classes.sep ∨ e.mnemonic ∈ p.classes.rep := hclass.imp And.right And.right
  obtain ⟨hwidth, -⟩ := hp.rc4 op e hat.entry hstatus
  have hrel := (hp.rc5 op e hat.entry).2 (.inr (.inr hstatus))
  obtain ⟨-, -, hset, hreset⟩ := Params.Admissible.classes_disjoint hp e.mnemonic
  refine ⟨fun ws => instrSize_of_not_widthDependent hwidth ws s.ws, ?_⟩
  rw [stepWith_atEntry hp.rc5 hat]
  obtain ⟨rfl, hsep⟩ | ⟨rfl, hrep⟩ := hclass
  · obtain ⟨hret, hcall, hrep⟩ := hset hsep
    rw [knownStep_status_anyMode hcall hret hrel]
    cases ops with
    | nil => rw [knownStep_ws_nil]
    | cons q ops => simp only [knownStep_ws_cons, hsep, hrep, and_true, and_false, if_false]
  · obtain ⟨hret, hsep, hcall⟩ := hreset hrep
    rw [knownStep_status_anyMode hcall hret hrel]
    cases ops with
    | nil => rw [knownStep_ws_nil]
    | cons q ops => simp only [knownStep_ws_cons, hsep, hrep, and_true, and_false, if_false]

/-- Settles O32: the cursor moves by the length at the opcode, and the program counter with it. -/
theorem cursorAdvancesByLength : Obligations.CursorAdvancesByLength := by
  intro p s t op hop h
  obtain ⟨hra, hstart, hcur⟩ := stepWith_next_cursor hop h
  have hmoved : t.cur - s.cur = lengthOf p.rom s.ws op := by omega
  rw [hmoved]
  exact ⟨hcur, State.pc_of_shift hra hstart hcur, lengthOf_pos _ _ _, lengthOf_le _ _ _⟩

/-! ### The two opcodes the source fixes -/

/-- Where `0x60` stands it is an entry without operand bytes, in every admissible table (RC2). -/
theorem State.AtOpcode.atRts {p : Params} {s : State} (hop : s.AtOpcode 0x60) (hp : p.Admissible) :
    s.AtEntry p 0x60 ⟨['r', 't', 's'], .imp⟩ [] where
  toAtOpcode := hop
  entry := hp.rc2
  captured := (Nat.zero_min _).symm
  bytes _ _ h := by cases h

/-- Settles O30: RC1 and RC2 fix the two entries; `lda` is in no class of R66 and `rts` is a return. -/
theorem sourceFixedOpcodes : Obligations.SourceFixedOpcodes := by
  intro p s hp hclasses
  refine ⟨fun e ops hat => ?_, fun hop => ?_⟩
  · obtain rfl : ⟨['l', 'd', 'a'], .immM⟩ = e := Option.some.inj (hp.rc1.symm.trans hat.entry)
    have hnone : classOf p.classes ['l', 'd', 'a'] = .none := by
      rw [hclasses]
      decide
    rw [plainClassStep p s _ _ ops hp.rc5 hat hnone (by decide), ← knownLine_eq_pcPrefix, knownLine_fmt (by decide),
      instrSize_immM, fmt, immText_eq]
    simp only [List.append_assoc, List.cons_append, List.nil_append]
  · rw [returnClassStep p s _ _ [] hp (hop.atRts hp) hp.rc2ret]
    have hline : knownLine s.pc ['r', 't', 's'] [] = s.pcPrefix ++ ['r', 't', 's'] :=
      knownLine_no_operand (t := ['r', 't']) (c := 's') rfl (by decide)
    rw [fmt, hline]
    rfl

end Sys2Proof.Machine
end

section
/-! SUPPORT. Where the descriptors of a pass come from, and the obligation of spec/41_decode_loop.md section 4 about it. -/

namespace Sys2Proof.Machine

open Sys2Proof

section
variable {p : Params} {s : State}

/-- In an admissible table an entry with a descriptor has an operand: a call is absolute or long, a branch relative. -/
theorem mode_ne_imp_of_descriptor {op : Byte} {e : Entry} (h5 : p.RC5) (he : p.rom op = some e)
    (h : e.mnemonic ∈ p.classes.call ∨ e.mode = .rel) : e.mode ≠ .imp := by
  obtain hcall | hrel := h
  · obtain hmode | hmode := (h5 op e he).1 hcall <;> simp [hmode]
  · simp [hrel]

/-- A descriptor after the step of an entry stood there before or is the entry's own. -/
theorem mem_knownStep_calls {c : ClassSets} {mn : Text} {mode : Mode} {ops : List Byte} {d : Text}
    (h : d ∈ (knownStep c mn mode ops s).calls) : d ∈ s.calls ∨ (mn ∈ c.call ∧ d = descriptor mn (fmt mode ops s.pc)) := by
  rw [knownStep_calls] at h
  by_cases hcall : mn ∈ c.call
  · rw [if_pos hcall, TextSet.mem_insert] at h
    exact h.symm.imp_right fun hd => ⟨hcall, hd⟩
  · rw [if_neg hcall] at h
    exact .inl h

theorem mem_knownStep_branches {c : ClassSets} {mn : Text} {mode : Mode} {ops : List Byte} {d : Text}
    (h : d ∈ (knownStep c mn mode ops s).branches) :
    d ∈ s.branches ∨ (mode = .rel ∧ d = descriptor mn (fmt mode ops s.pc)) := by
  rw [knownStep_branches] at h
  by_cases hrel : mode = .rel
  · rw [if_pos hrel, TextSet.mem_insert] at h
    exact h.symm.imp_right fun hd => ⟨hrel, hd⟩
  · rw [if_neg hrel] at h
    exact .inl h

/-- The step of an entry adds no descriptor but the tail of the line it appends. -/
theorem knownStep_descriptorsFromLines {op : Byte} {e : Entry} {ops : List Byte} (h5 : p.RC5) (he : p.rom op = some e)
    (h : s.DescriptorsFromLines) : (knownStep p.classes e.mnemonic e.mode ops s).DescriptorsFromLines := by
  intro d hd
  rw [knownStep_lines]
  have hcases : (d ∈ s.calls ∨ d ∈ s.branches) ∨ ((e.mnemonic ∈ p.classes.call ∨ e.mode = .rel) ∧
      d = descriptor e.mnemonic (fmt e.mode ops s.pc)) := by
    obtain hd | hd := hd
    · obtain hold | ⟨hcall, hnew⟩ := mem_knownStep_calls hd
      · exact .inl (.inl hold)
      · exact .inr ⟨.inl hcall, hnew⟩
    · obtain hold | ⟨hrel, hnew⟩ := mem_knownStep_branches hd
      · exact .inl (.inr hold)
      · exact .inr ⟨.inr hrel, hnew⟩
  obtain hold | ⟨hclass, rfl⟩ := hcases
  · obtain ⟨l, hl, hdl⟩ := h d hold
    exact ⟨l, List.mem_append_left _ hl, hdl⟩
  · have himp := mode_ne_imp_of_descriptor h5 he hclass
    exact ⟨_, List.mem_append_right _ (List.mem_singleton_self _), descriptor_eq_upper_knownLine himp _ ops s⟩

/-- A descriptor the step of an entry adds to `CALLS` begins with the entry's mnemonic. -/
theorem knownStep_callsFromClass {c : ClassSets} {mn : Text} {mode : Mode} {ops : List Byte} (h : s.CallsFromClass c) :
    (knownStep c mn mode ops s).CallsFromClass c := by
  intro d hd
  obtain hold | ⟨hcall, rfl⟩ := mem_knownStep_calls hd
  · exact h d hold
  · exact ⟨mn, hcall, fmt mode ops s.pc, rfl⟩

/-- The step of an unknown opcode appends a line and adds no descriptor. -/
theorem State.after_descriptorsFromLines (line : Text) (n : Nat) (h : s.DescriptorsFromLines) :
    (s.after line n).DescriptorsFromLines := by
  intro d hd
  obtain ⟨l, hl, hdl⟩ := h d hd
  exact ⟨l, List.mem_append_left _ hl, hdl⟩

/-- A launch leaves no descriptor, and a change of the buffer leaves lines and descriptors alone. -/
theorem launcherStep_descriptors {m : Byte → Addr → Nat} {c : ClassSets} {t : State} (h : launcherStep m s = .next t) :
    (s.DescriptorsFromLines → t.DescriptorsFromLines) ∧ (s.CallsFromClass c → t.CallsFromClass c) := by
  obtain ⟨buf, ra, mb, rest, -, rfl⟩ | ⟨buf, rest, -, rfl⟩ := launcherStep_next h
  · exact ⟨fun _ d hd => by simp at hd, fun _ d hd => by simp at hd⟩
  · exact ⟨id, id⟩

end

/-- Settles O50: only the step of an entry adds a descriptor, and it is the tail of the line appended with it. -/
theorem stepKeepsDescriptorsFromLines : Obligations.StepKeepsDescriptorsFromLines := by
  intro p s t hp h
  by_cases hr : s.phase = .run
  · obtain ⟨op, -, ⟨-, rfl⟩ | ⟨e, ops, he, -, rfl⟩⟩ := sequencerStep_next (stepWith_next_run hr h)
    · exact ⟨s.after_descriptorsFromLines _ 1, id⟩
    · exact ⟨knownStep_descriptorsFromLines hp.rc5 he, knownStep_callsFromClass⟩
  · rw [stepWith_launcher hp.rc5 hr] at h
    exact launcherStep_descriptors h

end Sys2Proof.Machine
end

section
/-! SUPPORT. What each instruction of the reference fill does, from the step of its class, and the obligations of
spec/42_width_control.md, spec/43_flow_control.md and spec/44_data_and_implicit.md about it. -/

namespace Sys2Proof.Machine

open Sys2Proof

/-! ### The step of each class in the terms of the statements -/

/-- A 16-bit operand as the sum of its bytes, the second one worth 256 (R44). -/
theorem fmt_abs_eq (ops : List Byte) (pc : Addr) :
    fmt .abs ops pc = ['$'] ++ hexN 4 ((ops.getD 0 0).toNat + 256 * (ops.getD 1 0).toNat) := by
  rw [fmt, word16_eq]

theorem fmt_long_eq (ops : List Byte) (pc : Addr) :
    fmt .long ops pc =
      ['$'] ++ hexN 6 ((ops.getD 0 0).toNat + 256 * (ops.getD 1 0).toNat + 65536 * (ops.getD 2 0).toNat) := by
  rw [fmt, word24_eq]

/-- An instruction of class `NONE` with an operand (R170). -/
theorem plainStep_operand {mode : Mode} (h : mode ≠ .imp) (mn : Text) (ops : List Byte) (s : State) :
    plainStep mn mode ops s = s.after (s.pcPrefix ++ mn ++ [' '] ++ fmt mode ops s.pc) (instrSize mode s.ws) := by
  rw [plainStep_eq_after, knownLine_fmt h]

/-- The same with the line and the size under names of their own. -/
theorem plainStep_of_line {mode : Mode} {mn line : Text} {ops : List Byte} {s : State} {n : Nat} (h : mode ≠ .imp)
    (hline : s.pcPrefix ++ mn ++ [' '] ++ fmt mode ops s.pc = line) (hsize : instrSize mode s.ws = n) :
    plainStep mn mode ops s = s.after line n := by
  rw [plainStep_operand h, hline, hsize]

/-- The line of an implicit instruction is the program counter and the mnemonic, without a trailing space (R108). -/
theorem knownLine_implicit {mn : Text} {c : Char} (hmn : mn.getLast? = some c) (hc : (c == ' ') = false) (s : State) :
    knownLine s.pc mn [] = s.pcPrefix ++ mn :=
  let ⟨_, ht⟩ := List.getLast?_eq_some_iff.1 hmn
  knownLine_no_operand ht hc

/-- A call with an operand (R140). -/
theorem callStep_operand {mode : Mode} (h : mode ≠ .imp) (mn : Text) (ops : List Byte) (s : State) :
    callStep mn mode ops s =
      { s.after (s.pcPrefix ++ mn ++ [' '] ++ fmt mode ops s.pc) (instrSize mode s.ws) with
        calls := TextSet.insert (upper mn ++ [' '] ++ fmt mode ops s.pc) s.calls } := by
  rw [callStep_eq_after, knownLine_fmt h, descriptor]

/-- A width-dependent immediate, with the digits of the captured bytes (R84, R171). -/
theorem plainStep_immediate {mode : Mode} (h : mode = .immM ∨ mode = .immX) (mn : Text) (ops : List Byte) (s : State) :
    plainStep mn mode ops s =
      s.after (s.pcPrefix ++ mn ++ ([' ', '#', '$'] ++ (if ops.length ≤ 1 then hexN 2 (ops.getD 0 0).toNat
        else hexN 4 ((ops.getD 0 0).toNat + 256 * (ops.getD 1 0).toNat)))) (instrSize mode s.ws) := by
  have himm : fmt mode ops s.pc = immText ops := by obtain rfl | rfl := h <;> rfl
  have himp : mode ≠ .imp := by obtain rfl | rfl := h <;> decide
  rw [plainStep_operand himp, himm, immText_eq]
  simp only [List.append_assoc, List.cons_append, List.nil_append]

/-- A set- or reset-status instruction (R130, R131). -/
theorem statusStep_eq_after (f : Byte → WidthState → WidthState) (mn : Text) (ops : List Byte) (s : State) :
    statusStep f mn ops s =
      { s.after (s.pcPrefix ++ mn ++ ([' ', '#', '$'] ++ hexN 2 (ops.getD 0 0).toNat)) 2 with
        ws := widthUpdate f ops s.ws } := by
  have hline : knownLine s.pc mn (fmt .imm8 ops s.pc) =
      s.pcPrefix ++ mn ++ ([' ', '#', '$'] ++ hexN 2 (ops.getD 0 0).toNat) := by
    rw [knownLine_fmt (by decide), fmt, opByte]
    simp only [List.append_assoc, List.cons_append, List.nil_append]
  rw [statusStep_eq, hline]
  rfl

/-- Without an operand byte no bit is set, as with the byte zero. -/
theorem widthUpdate_eq_getD {f : Byte → WidthState → WidthState} (h : ∀ ws, f 0 ws = ws) (ops : List Byte)
    (ws : WidthState) : widthUpdate f ops ws = f (ops.getD 0 0) ws := by
  cases ops with
  | nil => exact (h ws).symm
  | cons q ops => rfl

theorem widthUpdate_setStatus (ops : List Byte) (ws : WidthState) :
    widthUpdate setStatus ops ws =
      ⟨!(ops.getD 0 0).getLsbD 5 && ws.m8, !(ops.getD 0 0).getLsbD 4 && ws.x8⟩ := by
  rw [widthUpdate_eq_getD (fun _ => rfl), setStatus_eq]
  cases (ops.getD 0 0).getLsbD 5 <;> cases (ops.getD 0 0).getLsbD 4 <;> rfl

theorem widthUpdate_resetStatus (ops : List Byte) (ws : WidthState) :
    widthUpdate resetStatus ops ws =
      ⟨(ops.getD 0 0).getLsbD 5 || ws.m8, (ops.getD 0 0).getLsbD 4 || ws.x8⟩ := by
  rw [widthUpdate_eq_getD (fun _ => rfl), resetStatus_eq]
  cases (ops.getD 0 0).getLsbD 5 <;> cases (ops.getD 0 0).getLsbD 4 <;> rfl

/-! ### The obligations about single instructions -/

/-- Settles O39: each of the nine rows is the step of a branch with its own mnemonic. -/
theorem branchInstructionsComplete : Obligations.BranchInstructionsComplete := by
  intro ops s target x hx
  have hrow : exec x.1 s = .next (branchStep x.2.1 ops s) ∧ upper x.2.1 = x.2.2 := by
    revert x
    simp only [List.forall_mem_cons, List.not_mem_nil, false_imp_iff, implies_true, and_true]
    exact ⟨⟨rfl, rfl⟩, ⟨rfl, rfl⟩, ⟨rfl, rfl⟩, ⟨rfl, rfl⟩, ⟨rfl, rfl⟩, ⟨rfl, rfl⟩, ⟨rfl, rfl⟩, ⟨rfl, rfl⟩, rfl, rfl⟩
  obtain ⟨hexec, hupper⟩ := hrow
  rw [hexec, branchStep_eq_after, fmt_rel_eq, hupper]

/-- Settles O40: each of the four rows is the step of a call, in its own mode. -/
theorem callInstructionsComplete : Obligations.CallInstructionsComplete := by
  intro ops s b near far x hx
  have hnear : fmt .abs ops s.pc = near := fmt_abs_eq ops s.pc
  have hfar : fmt .long ops s.pc = far := fmt_long_eq ops s.pc
  have hrow : ∃ mode, mode ≠ .imp ∧ exec x.1 s = .next (callStep x.2.1 mode ops s) ∧ upper x.2.1 = x.2.2.1 ∧
      fmt mode ops s.pc = x.2.2.2.1 ∧ instrSize mode s.ws = x.2.2.2.2 := by
    revert x
    simp only [List.forall_mem_cons, List.not_mem_nil, false_imp_iff, implies_true, and_true]
    exact ⟨⟨.abs, by decide, rfl, rfl, hnear, rfl⟩, ⟨.abs, by decide, rfl, rfl, hnear, rfl⟩,
      ⟨.long, by decide, rfl, rfl, hfar, rfl⟩, ⟨.long, by decide, rfl, rfl, hfar, rfl⟩⟩
  obtain ⟨mode, himp, hexec, hupper, htext, hsize⟩ := hrow
  rw [hexec, callStep_operand himp, hupper, htext, hsize]

/-- Settles O41: each of the three rows is the step of a return, whose line has no operand. -/
theorem returnInstructionsComplete : Obligations.ReturnInstructionsComplete := by
  intro s x hx
  have hrow : exec x.1 s = .next (returnStep x.2 s) ∧ knownLine s.pc x.2 [] = s.pcPrefix ++ x.2 := by
    revert x
    simp only [List.forall_mem_cons, List.not_mem_nil, false_imp_iff, implies_true, and_true]
    exact ⟨⟨rfl, knownLine_implicit rfl rfl s⟩,
      ⟨rfl, knownLine_implicit rfl rfl s⟩,
      rfl, knownLine_implicit rfl rfl s⟩
  obtain ⟨hexec, hline⟩ := hrow
  rw [hexec, returnStep_eq, hline]
  rfl

/-- Settles O42: the steps of the status class with the two updates of the flags. -/
theorem statusInstructionsComplete : Obligations.StatusInstructionsComplete := by
  intro ops s operand m x
  refine ⟨congrArg Host.Outcome.next ?_, congrArg Host.Outcome.next ?_⟩
  · exact (statusStep_eq_after setStatus mnSep ops s).trans (by rw [widthUpdate_setStatus]; rfl)
  · exact (statusStep_eq_after resetStatus mnRep ops s).trans (by rw [widthUpdate_resetStatus]; rfl)

/-- Settles O43: each row is a plain step in the mode of its width flag. -/
theorem immediateInstructionsComplete : Obligations.ImmediateInstructionsComplete := by
  intro ops s operand
  refine ⟨fun x hx => ?_, fun x hx => ?_⟩
  · have hexec : exec x.1 s = .next (plainStep x.2 .immM ops s) := by
      revert x
      simp only [List.forall_mem_cons, List.not_mem_nil, false_imp_iff, implies_true, and_true]
      exact ⟨rfl, rfl, rfl⟩
    rw [hexec, plainStep_immediate (.inl rfl), instrSize_immM]
  · have hexec : exec x.1 s = .next (plainStep x.2 .immX ops s) := by
      revert x
      simp only [List.forall_mem_cons, List.not_mem_nil, false_imp_iff, implies_true, and_true]
      exact ⟨rfl, rfl⟩
    rw [hexec, plainStep_immediate (.inr rfl), instrSize_immX]

/-- Settles O44: each form is the plain step in its mode, which reads and writes no byte. -/
theorem memoryFormInstructionsComplete : Obligations.MemoryFormInstructionsComplete := by
  intro ops s b near far
  refine ⟨congrArg Host.Outcome.next (plainStep_of_line (mode := .abs) (by decide) ?_ rfl),
    congrArg Host.Outcome.next (plainStep_of_line (mode := .abs) (by decide) ?_ rfl),
    congrArg Host.Outcome.next (plainStep_of_line (mode := .absY) (by decide) ?_ rfl),
    congrArg Host.Outcome.next (plainStep_of_line (mode := .dpX) (by decide) ?_ rfl),
    congrArg Host.Outcome.next (plainStep_of_line (mode := .long) (by decide) ?_ rfl)⟩
  all_goals simp only [fmt, word16_eq, word24_eq, near, far, b, mnSta, mnLda, opByte, List.append_assoc,
    List.cons_append, List.nil_append]

/-- Settles O45: the implicit forms are plain steps without operand text, a raw byte is the step of an unknown opcode. -/
theorem oneByteInstructionsComplete : Obligations.OneByteInstructionsComplete := by
  refine ⟨fun s x hx => ?_, fun op s => ?_⟩
  · have hrow : exec x.1 s = .next (plainStep x.2 .imp [] s) ∧ knownLine s.pc x.2 [] = s.pcPrefix ++ x.2 := by
      revert x
      simp only [List.forall_mem_cons, List.not_mem_nil, false_imp_iff, implies_true, and_true]
      exact ⟨⟨rfl, knownLine_implicit rfl rfl s⟩,
        ⟨rfl, knownLine_implicit rfl rfl s⟩,
        ⟨rfl, knownLine_implicit rfl rfl s⟩,
        rfl, knownLine_implicit rfl rfl s⟩
    obtain ⟨hexec, hline⟩ := hrow
    rw [hexec, plainStep_eq_after, fmt, hline]
    rfl
  · rw [exec_byte, rawLine_eq_pcPrefix]

/-! ### Which instruction is in which class -/

/-- The status classes hold `sep` and `rep` only. -/
theorem eq_status_of_class {i : Instr} {e : Entry} (h : Laws.entryOf i = some e)
    (hclass : e.mnemonic ∈ refClasses.rep ∨ e.mnemonic ∈ refClasses.sep) : i = .sep i.ops ∨ i = .rep i.ops := by
  cases i with
  | sep ops => exact .inl rfl
  | rep ops => exact .inr rfl
  | byte op => cases h
  | _ =>
    obtain rfl := Option.some.inj h
    exact absurd hclass (by decide)

/-- The call class holds the four calls and jumps only. -/
theorem eq_call_of_class {i : Instr} {e : Entry} (h : Laws.entryOf i = some e) (hclass : e.mnemonic ∈ refClasses.call) :
    i = .jsr i.ops ∨ i = .jsl i.ops ∨ i = .jmp i.ops ∨ i = .jml i.ops := by
  cases i with
  | jsr ops => exact .inl rfl
  | jsl ops => exact .inr (.inl rfl)
  | jmp ops => exact .inr (.inr (.inl rfl))
  | jml ops => exact .inr (.inr (.inr rfl))
  | byte op => cases h
  | _ =>
    obtain rfl := Option.some.inj h
    exact absurd hclass (by decide)

/-- The relative entries are the nine branches. -/
theorem opcode_of_mode_rel {i : Instr} {e : Entry} (h : Laws.entryOf i = some e) (hmode : e.mode = .rel) :
    i.opcode ∈ [0x10, 0x30, 0x50, 0x70, 0x80, 0x90, 0xB0, 0xD0, 0xF0] := by
  cases i with
  | bpl ops | bmi ops | bvc ops | bvs ops | bra ops | bcc ops | bcs ops | bne ops | beq ops => simp [Instr.opcode]
  | byte op => cases h
  | _ =>
    obtain rfl := Option.some.inj h
    cases hmode

/-- The return class holds the three returns only. -/
theorem return_class_iff {i : Instr} {e : Entry} (h : Laws.entryOf i = some e) :
    e.mnemonic ∈ refClasses.ret ↔ i = .rts ∨ i = .rtl ∨ i = .rti := by
  cases i with
  | byte op => cases h
  | rts | rtl | rti =>
    obtain rfl := Option.some.inj h
    exact iff_of_true (by decide) (by decide)
  | _ =>
    obtain rfl := Option.some.inj h
    exact iff_of_false (by decide) (by simp)

/-! ### The frame and the use of the width flags -/

theorem knownStep_ws_of_no_status {c : ClassSets} {mn : Text} (h : ¬ (mn ∈ c.rep ∨ mn ∈ c.sep)) (mode : Mode)
    (ops : List Byte) (s : State) : (knownStep c mn mode ops s).ws = s.ws := by
  obtain ⟨hrep, hsep⟩ := not_or.1 h
  rw [knownStep_eq]
  simp only [if_neg hrep, if_neg hsep]

/-- Another width state that gives the mode the same size changes nothing but the width state (R17). -/
theorem knownStep_setWidth {mode : Mode} {w : WidthState} {s : State} (h : instrSize mode w = instrSize mode s.ws)
    (c : ClassSets) (mn : Text) (ops : List Byte) :
    (knownStep c mn mode ops (s.setWidth w)).setWidth (knownStep c mn mode ops s).ws = knownStep c mn mode ops s := by
  rw [knownStep_eq, knownStep_eq]
  simp only [State.setWidth_ws, State.setWidth_pc, State.setWidth_lines, State.setWidth_calls, State.setWidth_branches,
    State.setWidth_cur, State.setWidth_endOff, State.setWidth_phase, h]
  rfl

/-- Settles O46: an instruction is the step of its table entry or of an unknown opcode, and its class says which register
that step writes. -/
theorem instructionFrames : Obligations.InstructionFrames := by
  intro i s t h
  cases he : Laws.entryOf i with
  | none =>
    have hi := eq_byte_of_entryOf_none he
    rw [hi, exec_byte] at h
    obtain rfl := Host.Outcome.next.inj h
    refine ⟨absurd rfl, absurd rfl, absurd rfl, rfl, rfl, rfl, rfl, rfl, fun _ => rfl, rfl, ⟨_, rfl⟩, Nat.lt_succ_self _,
      fun hr => ?_⟩
    rw [hi]
    by_cases hend : s.endOff ≤ s.cur + 1 <;> simp [State.after, hend, hr]
  | some e =>
    rw [exec_of_entryOf he] at h
    obtain rfl := Host.Outcome.next.inj h
    have hadv := knownStep_advanced refClasses e.mnemonic e.mode i.ops s
    obtain ⟨hstart, hend, hra, hmax, hbuf⟩ := hadv.window
    have hpos := instrSize_pos e.mode s.ws
    refine ⟨fun hws => ?_, fun hcalls => ?_, fun hbranches => ?_, hstart, hend, hra, hmax, hadv.host,
      fun k => by rw [hbuf], by rw [hbuf], hadv.lines, by rw [hadv.cur]; omega, fun hr => ?_⟩
    · by_contra hno
      exact hws (knownStep_ws_of_no_status (fun hclass => hno (eq_status_of_class he hclass)) _ _ s)
    · by_contra hno
      exact hcalls ((knownStep_calls ..).trans (if_neg fun hclass => hno (eq_call_of_class he hclass)))
    · by_contra hno
      exact hbranches ((knownStep_branches ..).trans (if_neg fun hmode => hno (opcode_of_mode_rel he hmode)))
    · rw [knownStep_phase, knownStep_cur, ← or_assoc, ← or_assoc, or_assoc (a := i = .rts), ← return_class_iff he, hr]
      by_cases hdone : e.mnemonic ∈ refClasses.ret ∨ s.endOff ≤ s.cur + instrSize e.mode s.ws <;> simp [hdone]

/-- Settles O47: the step of the table entry reads the width state only in the size, and that of a raw byte not at all. -/
theorem widthReadOnlyBySizer : Obligations.WidthReadOnlyBySizer := by
  intro i s w hwf hlen
  cases he : Laws.entryOf i with
  | none =>
    rw [eq_byte_of_entryOf_none he]
    exact ⟨_, _, exec_byte _ s, exec_byte _ (s.setWidth w), rfl⟩
  | some e =>
    have hrom : refRom i.opcode = some e := (refRom_opcode hwf).trans he
    rw [lengthOf_some hrom, lengthOf_some hrom] at hlen
    exact ⟨_, _, exec_of_entryOf he s, exec_of_entryOf he (s.setWidth w), knownStep_setWidth hlen _ _ _⟩

end Sys2Proof.Machine
end

section
/-! SUPPORT. Whole passes: a window of zero bytes, a return at once, and the source's example; the obligations of
spec/95_test_vectors.md Part 1. -/

namespace Sys2Proof.Machine

open Sys2Proof

/-! ### A window of zero bytes -/

/-- `s` with the rest of its window listed as raw zero bytes, and the pass ended (S6). -/
def State.zerosListed (s : State) : State :=
  { s with lines := s.lines ++ zeroLines s.pc (s.endOff - s.cur), cur := s.endOff, phase := .done }

/-- A window that holds only zero bytes from the cursor on. -/
def State.OnlyZerosAhead (s : State) : Prop := ∀ k, s.cur ≤ k → k < s.endOff → s.buf.read? k = some 0x00

/-- The state after the raw-byte line of a zero byte. -/
def State.afterZero (s : State) : State := s.after (rawLine s.pc 0x00) 1

@[simp] theorem State.afterZero_cur (s : State) : s.afterZero.cur = s.cur + 1 := rfl
@[simp] theorem State.afterZero_endOff (s : State) : s.afterZero.endOff = s.endOff := rfl
@[simp] theorem State.afterZero_lines (s : State) : s.afterZero.lines = s.lines ++ [rawLine s.pc 0x00] := rfl
@[simp] theorem State.afterZero_pc (s : State) : s.afterZero.pc = s.pc + 1 := State.pc_of_shift rfl rfl rfl

theorem State.OnlyZerosAhead.afterZero {s : State} (h : s.OnlyZerosAhead) : s.afterZero.OnlyZerosAhead :=
  fun k hk hend => h k (Nat.le_of_succ_le hk) hend

/-- While the window lasts, the next opcode is zero again. -/
theorem State.AtOpcode.afterZero {s : State} (hop : s.AtOpcode 0x00) (hzeros : s.OnlyZerosAhead)
    (hlt : s.cur + 1 < s.endOff) : s.afterZero.AtOpcode 0x00 where
  running := (if_neg (Nat.not_le.2 hlt)).trans hop.running
  stable := hop.stable
  inside := ⟨Nat.le_succ_of_le hop.inside.1, hlt⟩
  opcode := hzeros (s.cur + 1) (Nat.le_succ _) hlt

/-- The last zero byte of the window ends the pass. -/
theorem State.zerosListed_of_last {s : State} (h : s.endOff = s.cur + 1) : s.zerosListed = s.afterZero := by
  have hone : s.endOff - s.cur = 1 := by omega
  have hle : s.endOff ≤ s.cur + 1 := by omega
  simp only [State.zerosListed, hone, zeroLines, State.afterZero, State.after, if_pos hle]
  rw [h]

/-- One zero byte and then the rest of the window. -/
theorem State.zerosListed_afterZero {s : State} (h : s.cur < s.endOff) : s.afterZero.zerosListed = s.zerosListed := by
  obtain ⟨n, hn⟩ : ∃ n, s.endOff - s.cur = n + 1 := ⟨s.endOff - s.cur - 1, by omega⟩
  have hn' : s.endOff - (s.cur + 1) = n := by omega
  simp only [State.zerosListed, State.afterZero_lines, State.afterZero_pc, State.afterZero_endOff, State.afterZero_cur, hn,
    hn', zeroLines, List.append_assoc, List.cons_append, List.nil_append]
  rfl

theorem run_zeros {p : Params} (h5 : p.RC5) (hnone : p.rom 0x00 = none) (n : Nat) {s : State} (hop : s.AtOpcode 0x00)
    (hzeros : s.OnlyZerosAhead) (hn : s.endOff - s.cur = n) : (coreWith p).run n s = .next s.zerosListed := by
  have hinside := hop.inside
  induction n generalizing s with
  | zero => omega
  | succ n ih =>
    have hstep : stepWith p s = .next s.afterZero :=
      (stepWith_atOpcode h5 hop).trans (sequencerStep_unknown (readByte_at hop) hnone)
    rw [coreWith_run_next hstep]
    obtain rfl | hpos := Nat.eq_zero_or_pos n
    · rw [State.zerosListed_of_last (by omega)]
      rfl
    · have hlt : s.cur + 1 < s.endOff := by omega
      have hop' := hop.afterZero hzeros hlt
      rw [ih hop' hzeros.afterZero (by simp only [State.afterZero_endOff, State.afterZero_cur]; omega) hop'.inside,
        State.zerosListed_afterZero hinside.2]

/-- Settles O52: by induction on the bytes left, each step listing one and moving the program counter by one. -/
theorem zeroBytesDecodeToRawLines : Obligations.ZeroBytesDecodeToRawLines :=
  fun _ _ h5 hnone hop hzeros => run_zeros h5 hnone _ hop hzeros rfl

/-! ### A pass from its launch on -/

/-- A launch with a budget and an opcode at its start address begins a pass at that opcode. -/
theorem launchWith_atOpcode {m : Byte → Addr → Nat} {s : State} {buf : Buffer} {ra : Addr} {mb : Option Nat} {op : Byte}
    (hs : s.BufferStable) (hmb : mb ≠ some 0) (hop : buf.read? (m 0 ra) = some op) :
    (s.launchWith m buf ra mb).AtOpcode op := by
  have hbudget : 0 < mb.getD defaultMaxBytes := by
    cases mb with
    | none => decide
    | some n => exact Nat.pos_of_ne_zero fun h => hmb (congrArg some h)
  have hinside : m 0 ra < min buf.len (m 0 ra + mb.getD defaultMaxBytes) := by
    have := (Buffer.read?_eq_some.1 hop).1
    omega
  exact ⟨if_pos hinside, hs, ⟨Nat.le_refl _, hinside⟩, hop⟩

/-- A launched window ends inside the buffer. -/
theorem launchWith_endOff_le_len (m : Byte → Addr → Nat) (s : State) (buf : Buffer) (ra : Addr) (mb : Option Nat) :
    (s.launchWith m buf ra mb).endOff ≤ (s.launchWith m buf ra mb).buf.len := Nat.min_le_left _ _

/-- Settles O53: the launch begins a pass at the return, whose step ends it with one line; nothing adds a descriptor. -/
theorem singleReturnPass : Obligations.SingleReturnPass := by
  intro p s buf ra mb rest op e hp hr hhost hrest hmb hop he hret
  have hat := (launchWith_atOpcode (s := { s with host := rest }) hrest hmb hop).atEntry he
    (launchWith_endOff_le_len p.mapper _ buf ra mb)
  have hstep := returnClassStep p _ op e _ hp hat hret
  exact ⟨_, _, (coreWith_run_next (stepWith_launch hp.rc5 hr hhost) 1).trans (coreWith_run_next hstep 0), rfl,
    State.result?_of_done rfl⟩

/-! ### The source's example -/

/-- The bytes of the source's example (S8). -/
def exampleBuffer : Buffer := Buffer.ofBytes [0xA9, 0x01, 0x60]

/-- The example right after its launch. -/
def exampleLaunched : State := State.reset.launchWith linearOffset exampleBuffer 0x8000 none

/-- The example after its `lda`. -/
def exampleAfterLda : State :=
  exampleLaunched.after (exampleLaunched.pcPrefix ++ ['l', 'd', 'a', ' ', '#', '$'] ++ hexN 2 1) 2

theorem reset_bufferStable : State.reset.BufferStable := by simp [State.BufferStable, State.reset]

theorem exampleLaunched_atEntry {p : Params} (hp : p.Admissible) :
    exampleLaunched.AtEntry p 0xA9 ⟨['l', 'd', 'a'], .immM⟩ [0x01] where
  toAtOpcode := launchWith_atOpcode reset_bufferStable (by decide) (by decide)
  entry := hp.rc1
  captured := by decide
  bytes j b hj := by
    obtain rfl : j = 0 := Nat.lt_one_iff.1 (List.getElem?_eq_some_iff.1 hj).1
    exact hj

theorem exampleAfterLda_atOpcode : exampleAfterLda.AtOpcode 0x60 where
  running := by decide
  stable := reset_bufferStable
  inside := by decide
  opcode := by decide

/-- Settles O54: the launch, the `lda` with one operand byte and the `rts`, each by the statement about its step. -/
theorem sourceEndToEndExample : Obligations.SourceEndToEndExample := by
  intro rom hp
  obtain ⟨hlda, -⟩ := sourceFixedOpcodes _ exampleLaunched hp rfl
  obtain ⟨-, hrts⟩ := sourceFixedOpcodes _ exampleAfterLda hp rfl
  have h1 := stepWith_launch (s := { State.reset with host := [.launch exampleBuffer 0x8000 none] }) hp.rc5 (by decide) rfl
  have h2 : stepWith ⟨rom, refClasses, linearOffset⟩ exampleLaunched = .next exampleAfterLda :=
    hlda _ _ (exampleLaunched_atEntry hp)
  have h3 := hrts exampleAfterLda_atOpcode
  refine ⟨_, (coreWith_run_next h1 2).trans ((coreWith_run_next h2 1).trans (coreWith_run_next h3 0)), ?_⟩
  exact (State.result?_of_done rfl).trans (by decide)

end Sys2Proof.Machine
end
